-- ==== Sys2Proof/Word.lean ====
section
/-! DEFINITION. The word, the byte, and the plain data that registers and memory are held in. -/

namespace Sys2Proof

/-- A register, a memory word, an address: 16 bits (spec/00_scope.md R6). -/
abbrev Word := BitVec 16

/-- A character on the keyboard and console interfaces: 8 bits (spec/44_trap.md R111). -/
abbrev Byte := BitVec 8

/-- The register file: R0 to R7, 16 bits each (spec/10_state.md R10). -/
structure Regs where
  r0 : Word
  r1 : Word
  r2 : Word
  r3 : Word
  r4 : Word
  r5 : Word
  r6 : Word
  r7 : Word
  deriving DecidableEq, Repr

/-- Memory as data: pairs of a word address and the word stored there, addresses strictly rising, no entry equal to what
an unlisted address reads as (`Memory.wf` of Machine/Ops.lean). The spec's addressable unit is the 16-bit word and it gives
the machine no bytes (spec/10_state.md R18, spec/20_memory.md R30), so a cell is a word (DESIGN CHOICE, log 3). -/
abbrev Memory := List (Nat × Word)

end Sys2Proof
end

