-- ==== Sys2Proof/Config.lean ====
section
/-! DEFINITION. What an implementation fixes (the parameters of spec/00_scope.md R7) and the one free value. -/

namespace Sys2Proof

/-- OPCODE_MAP: the 4-bit value of each opcode name (spec/00_scope.md R7, spec/30_encoding.md R56). -/
structure OpcodeMap where
  br : BitVec 4
  add : BitVec 4
  ld : BitVec 4
  st : BitVec 4
  jsr : BitVec 4
  and : BitVec 4
  ldr : BitVec 4
  str : BitVec 4
  rti : BitVec 4
  not : BitVec 4
  ldi : BitVec 4
  sti : BitVec 4
  jmp : BitVec 4
  res : BitVec 4
  lea : BitVec 4
  trap : BitVec 4
  deriving DecidableEq, Repr

/-- TRAP_MAP: the 8-bit vector of each trap service (spec/00_scope.md R7, spec/30_encoding.md R60). -/
structure TrapMap where
  getc : BitVec 8
  out : BitVec 8
  puts : BitVec 8
  inp : BitVec 8
  putsp : BitVec 8
  halt : BitVec 8
  deriving DecidableEq, Repr

/-- The parameters that spec/00_scope.md R7 leaves to the implementation. A `Config` stands in every `State` (field
`cfg`, which no step changes), so a statement over all states is a statement over all parameter values (log 1). The
defaults are `Machine.defaultConfig`. SHADOW_STACK, which R7 fixes, is false throughout (log 20). -/
structure Config where
  /-- KBSR_ADDR, the address of the keyboard status word. -/
  kbsrAddr : Word
  /-- KBDR_ADDR, the address of the keyboard data word. -/
  kbdrAddr : Word
  /-- IN_PROMPT, the bytes that the IN service writes before it reads. -/
  inPrompt : List Byte
  /-- RESET_PC. -/
  resetPC : Word
  /-- RESET_COND. -/
  resetCond : BitVec 3
  /-- RESET_GPR. -/
  resetGpr : Regs
  /-- INIT_MEM, memory before the image is loaded. -/
  initMem : Memory
  /-- OPCODE_MAP (log 2). -/
  opcodeMap : OpcodeMap
  /-- TRAP_MAP (log 2). -/
  trapMap : TrapMap
  deriving DecidableEq, Repr

/-- A run of poll answers: the key is found ready every time from here on, or that many times and then once not. Every
sequence of answers is a sequence of such runs (spec/10_state.md R21, log 6). -/
inductive PollRun where
  | forever
  | times (k : Nat)
  deriving DecidableEq, Repr, Inhabited

/-- The free value: the run of poll answers with this number. No rule decides an answer (spec/10_state.md R21, D24), so it
has no value here (log 6). -/
opaque Config.freePollRun : Nat → PollRun

end Sys2Proof
end

