-- ==== Sys2Proof/Machine/ResetValues.lean ====
section
/-! DEFINITION. The default parameter values (spec/00_scope.md R7), among them the values after reset (spec/10_state.md
R24). Each is the spec's decision, not its source's words (logs 1 to 4, 17). -/

namespace Sys2Proof.Machine

/-- INIT_MEM by default, and what an address that memory does not list reads as: 0x0000 (R24, D11, log 3). -/
def unlistedWord : Word := 0x0000#16

/-- KBSR_ADDR (R7, D5). -/
def defaultKbsrAddr : Word := 0xFE00#16

/-- KBDR_ADDR (R7, D5). -/
def defaultKbdrAddr : Word := 0xFE02#16

/-- IN_PROMPT: the nineteen ASCII bytes of "Enter a character: " (R7, spec/44_trap.md R115, D18). -/
def defaultInPrompt : List Byte :=
  [0x45#8, 0x6E#8, 0x74#8, 0x65#8, 0x72#8, 0x20#8, 0x61#8, 0x20#8, 0x63#8, 0x68#8] ++
  [0x61#8, 0x72#8, 0x61#8, 0x63#8, 0x74#8, 0x65#8, 0x72#8, 0x3A#8, 0x20#8]

/-- RESET_PC (R24, D8). -/
def defaultResetPC : Word := 0x3000#16

/-- RESET_COND, the flag Z (R24, D9). -/
def defaultResetCond : BitVec 3 := 0b010#3

/-- RESET_GPR, all zero (R24, D10). -/
def defaultResetGpr : Regs :=
  { r0 := 0#16, r1 := 0#16, r2 := 0#16, r3 := 0#16, r4 := 0#16, r5 := 0#16, r6 := 0#16, r7 := 0#16 }

/-- OPCODE_MAP, the sixteen opcode values (spec/30_encoding.md R56, D1, log 2). -/
def defaultOpcodeMap : OpcodeMap :=
  { br := 0x0#4, add := 0x1#4, ld := 0x2#4, st := 0x3#4, jsr := 0x4#4, and := 0x5#4, ldr := 0x6#4, str := 0x7#4,
    rti := 0x8#4, not := 0x9#4, ldi := 0xA#4, sti := 0xB#4, jmp := 0xC#4, res := 0xD#4, lea := 0xE#4, trap := 0xF#4 }

/-- TRAP_MAP (spec/30_encoding.md R60): x25 is the source's, the others D4 (log 2). -/
def defaultTrapMap : TrapMap :=
  { getc := 0x20#8, out := 0x21#8, puts := 0x22#8, inp := 0x23#8, putsp := 0x24#8, halt := 0x25#8 }

/-- The parameters at their defaults (R7). -/
def defaultConfig : Config :=
  { kbsrAddr := defaultKbsrAddr, kbdrAddr := defaultKbdrAddr, inPrompt := defaultInPrompt, resetPC := defaultResetPC,
    resetCond := defaultResetCond, resetGpr := defaultResetGpr, initMem := [],
    opcodeMap := defaultOpcodeMap, trapMap := defaultTrapMap }

end Sys2Proof.Machine
end

