-- ==== Sys2Proof/Syntax.lean ====
section
/-! DEFINITION. The instruction syntax: one constructor for each row of spec/opcode_table.json. -/

namespace Sys2Proof

/-- A general register R0 to R7 (spec/10_state.md R10). -/
inductive Reg where
  | r0 | r1 | r2 | r3 | r4 | r5 | r6 | r7
  deriving DecidableEq, Repr

/-- The sixteen opcode names (spec/30_encoding.md R56). -/
inductive Opcode where
  | br | add | ld | st | jsr | and | ldr | str | rti | not | ldi | sti | jmp | res | lea | trap
  deriving DecidableEq, Repr

/-- The six trap services (spec/30_encoding.md R60). -/
inductive Service where
  | getc | out | puts | inp | putsp | halt
  deriving DecidableEq, Repr

/-- The instructions, one constructor a row of spec/opcode_table.json, in the table's order. Offsets and immediates are
the raw fields, sign extended by the meanings. The bits that R58 says are ignored are no part of an instruction (log 14). -/
inductive Instr where
  /-- BR, R80. -/
  | br (n z p : Bool) (off : BitVec 9)
  /-- ADD, register form, R71. -/
  | addReg (dr sr1 sr2 : Reg)
  /-- ADD, immediate form, R72. -/
  | addImm (dr sr1 : Reg) (imm : BitVec 5)
  /-- LD, R90. -/
  | ld (dr : Reg) (off : BitVec 9)
  /-- ST, R100. -/
  | st (sr : Reg) (off : BitVec 9)
  /-- JSR, R84. -/
  | jsr (off : BitVec 11)
  /-- JSRR, R85. -/
  | jsrr (base : Reg)
  /-- AND, register form, R74. -/
  | andReg (dr sr1 sr2 : Reg)
  /-- AND, immediate form, R75. -/
  | andImm (dr sr1 : Reg) (imm : BitVec 5)
  /-- LDR, R92. -/
  | ldr (dr base : Reg) (off : BitVec 6)
  /-- STR, R102. -/
  | str (sr base : Reg) (off : BitVec 6)
  /-- RTI, R131. -/
  | rti
  /-- NOT, R77. -/
  | not (dr sr1 : Reg)
  /-- LDI, R91. -/
  | ldi (dr : Reg) (off : BitVec 9)
  /-- STI, R101. -/
  | sti (sr : Reg) (off : BitVec 9)
  /-- JMP, R82; with base R7 it is RET, R83. -/
  | jmp (base : Reg)
  /-- RES, R130. -/
  | res
  /-- LEA, R93. -/
  | lea (dr : Reg) (off : BitVec 9)
  /-- TRAP x20, R112. -/
  | trapGetc
  /-- TRAP x21, R113. -/
  | trapOut
  /-- TRAP x22, R114. -/
  | trapPuts
  /-- TRAP x23, R115. -/
  | trapIn
  /-- TRAP x24, R116. -/
  | trapPutsp
  /-- TRAP x25, R117. -/
  | trapHalt
  /-- TRAP with a vector 0x00 to 0x1F, R118. -/
  | trapUnlisted00 (vect : BitVec 8)
  /-- TRAP with vector 0x26 or 0x27, R118. -/
  | trapUnlisted26 (vect : BitVec 8)
  /-- TRAP with a vector 0x28 to 0x2F, R118. -/
  | trapUnlisted28 (vect : BitVec 8)
  /-- TRAP with a vector 0x30 to 0x3F, R118. -/
  | trapUnlisted30 (vect : BitVec 8)
  /-- TRAP with a vector 0x40 to 0x7F, R118. -/
  | trapUnlisted40 (vect : BitVec 8)
  /-- TRAP with a vector 0x80 to 0xFF, R118. -/
  | trapUnlisted80 (vect : BitVec 8)
  deriving DecidableEq, Repr

end Sys2Proof
end

