-- ==== Sys2Proof/Decode.lean ====
section
/-! DEFINITION. The decoder (total: spec/30_encoding.md R50), the encoder, the opcode table's masks, and the host's entry
`decodeTableWord`. -/

namespace Sys2Proof

/-- The value of an opcode name in OPCODE_MAP (spec/30_encoding.md R56). -/
def opcodeValue (c : Config) : Opcode → BitVec 4
  | .br => c.opcodeMap.br
  | .add => c.opcodeMap.add
  | .ld => c.opcodeMap.ld
  | .st => c.opcodeMap.st
  | .jsr => c.opcodeMap.jsr
  | .and => c.opcodeMap.and
  | .ldr => c.opcodeMap.ldr
  | .str => c.opcodeMap.str
  | .rti => c.opcodeMap.rti
  | .not => c.opcodeMap.not
  | .ldi => c.opcodeMap.ldi
  | .sti => c.opcodeMap.sti
  | .jmp => c.opcodeMap.jmp
  | .res => c.opcodeMap.res
  | .lea => c.opcodeMap.lea
  | .trap => c.opcodeMap.trap

/-- The sixteen opcode names (R56). -/
def opcodes : List Opcode :=
  [.br, .add, .ld, .st, .jsr, .and, .ldr, .str, .rti, .not, .ldi, .sti, .jmp, .res, .lea, .trap]

/-- The name that an opcode field selects (R51, R56). Where the sixteen values differ (`Config.mapsWf`) each of the sixteen
field values is some name's, and the default is never taken. -/
def opcodeName (c : Config) (b : BitVec 4) : Opcode :=
  (opcodes.find? (fun o => opcodeValue c o == b)).getD .trap

/-- The vector of a service in TRAP_MAP (R60). -/
def trapVector (c : Config) : Service → BitVec 8
  | .getc => c.trapMap.getc
  | .out => c.trapMap.out
  | .puts => c.trapMap.puts
  | .inp => c.trapMap.inp
  | .putsp => c.trapMap.putsp
  | .halt => c.trapMap.halt

/-- The six services (R60). -/
def services : List Service := [.getc, .out, .puts, .inp, .putsp, .halt]

/-- The service that a vector selects; none for the "other vector" case (R60, R61). -/
def serviceOf (c : Config) (v : BitVec 8) : Option Service := services.find? (fun x => trapVector c x == v)

/-- What the two maps must satisfy: the sixteen opcode values differ, and so do the six vectors (R56, R60, R61). -/
def Config.mapsWf (c : Config) : Bool :=
  decide (opcodes.map (opcodeValue c)).Nodup && decide (services.map (trapVector c)).Nodup

/-- The 3-bit selector of a register (R52). -/
def Reg.bits : Reg → BitVec 3
  | .r0 => 0#3
  | .r1 => 1#3
  | .r2 => 2#3
  | .r3 => 3#3
  | .r4 => 4#3
  | .r5 => 5#3
  | .r6 => 6#3
  | .r7 => 7#3

/-- The register that a 3-bit selector names (R10, R52). -/
def Reg.ofBits (b : BitVec 3) : Reg :=
  match b.toNat with
  | 0 => .r0
  | 1 => .r1
  | 2 => .r2
  | 3 => .r3
  | 4 => .r4
  | 5 => .r5
  | 6 => .r6
  | _ => .r7

/-- The `len` bits of a word from bit `lo` up: `w[lo+len-1:lo]`. -/
def field (w : Word) (lo len : Nat) : BitVec len := w.extractLsb' lo len

/-- The bit `w[i]`. -/
def bit (w : Word) (i : Nat) : Bool := w.getLsbD i

/-- `opcode = instr[15:12]` (R51). -/
def opcodeField (w : Word) : BitVec 4 := field w 12 4

/-- DR, SR: `instr[11:9]` (R52). -/
def drField (w : Word) : Reg := Reg.ofBits (field w 9 3)

/-- SR1, BaseR: `instr[8:6]` (R52). -/
def sr1Field (w : Word) : Reg := Reg.ofBits (field w 6 3)

/-- SR2: `instr[2:0]` (R52). -/
def sr2Field (w : Word) : Reg := Reg.ofBits (field w 0 3)

/-- The row of an unlisted vector (R61). The vectors 0x20 to 0x25, which only another TRAP_MAP leaves unlisted, count with
the first row; all six rows mean the same (R118, log 13). -/
def unlistedRow (v : BitVec 8) : Instr :=
  if v.toNat < 0x26 then .trapUnlisted00 v
  else if v.toNat < 0x28 then .trapUnlisted26 v
  else if v.toNat < 0x30 then .trapUnlisted28 v
  else if v.toNat < 0x40 then .trapUnlisted30 v
  else if v.toNat < 0x80 then .trapUnlisted40 v
  else .trapUnlisted80 v

/-- The instruction of a service's row. -/
def serviceRow : Service → Instr
  | .getc => .trapGetc
  | .out => .trapOut
  | .puts => .trapPuts
  | .inp => .trapIn
  | .putsp => .trapPutsp
  | .halt => .trapHalt

/-- The service or the unlisted row that `trapvect8 = instr[7:0]` selects (R60, R61). -/
def decodeTrap (c : Config) (v : BitVec 8) : Instr :=
  match serviceOf c v with
  | some x => serviceRow x
  | none => unlistedRow v

/-- The decoder: a pure function of the word (and of the two maps, which are parameters), total, no word rejected (R50, R61). -/
def decode (c : Config) (w : Word) : Instr :=
  match opcodeName c (opcodeField w) with
  | .br => .br (bit w 11) (bit w 10) (bit w 9) (field w 0 9)
  | .add => if bit w 5 then .addImm (drField w) (sr1Field w) (field w 0 5) else .addReg (drField w) (sr1Field w) (sr2Field w)
  | .ld => .ld (drField w) (field w 0 9)
  | .st => .st (drField w) (field w 0 9)
  | .jsr => if bit w 11 then .jsr (field w 0 11) else .jsrr (sr1Field w)
  | .and => if bit w 5 then .andImm (drField w) (sr1Field w) (field w 0 5) else .andReg (drField w) (sr1Field w) (sr2Field w)
  | .ldr => .ldr (drField w) (sr1Field w) (field w 0 6)
  | .str => .str (drField w) (sr1Field w) (field w 0 6)
  | .rti => .rti
  | .not => .not (drField w) (sr1Field w)
  | .ldi => .ldi (drField w) (field w 0 9)
  | .sti => .sti (drField w) (field w 0 9)
  | .jmp => .jmp (sr1Field w)
  | .res => .res
  | .lea => .lea (drField w) (field w 0 9)
  | .trap => decodeTrap c (field w 0 8)

/-- Append the field `f` below the bits packed so far. -/
def pack (w : Word) {n : Nat} (f : BitVec n) : Word := (w <<< n) ||| f.zeroExtend 16

/-- A word from its fields, the highest first, each with its width, as the rows of R57 write it. -/
def layout (fields : List (Σ n : Nat, BitVec n)) : Word := fields.foldl (fun w f => pack w f.2) 0#16

/-- A TRAP word with its ignored bits 11:8 clear (R57, R58). -/
def encodeTrap (c : Config) (v : BitVec 8) : Word := layout [⟨4, opcodeValue c .trap⟩, ⟨4, 0#4⟩, ⟨8, v⟩]

/-- The word of an instruction: the layout of R57, ignored bits at the values R58 calls canonical (log 14). -/
def encode (c : Config) : Instr → Word
  | .br n z p off => layout [⟨4, opcodeValue c .br⟩, ⟨1, BitVec.ofBool n⟩, ⟨1, BitVec.ofBool z⟩, ⟨1, BitVec.ofBool p⟩, ⟨9, off⟩]
  | .addReg dr sr1 sr2 => layout [⟨4, opcodeValue c .add⟩, ⟨3, dr.bits⟩, ⟨3, sr1.bits⟩, ⟨1, 0#1⟩, ⟨2, 0#2⟩, ⟨3, sr2.bits⟩]
  | .addImm dr sr1 imm => layout [⟨4, opcodeValue c .add⟩, ⟨3, dr.bits⟩, ⟨3, sr1.bits⟩, ⟨1, 1#1⟩, ⟨5, imm⟩]
  | .ld dr off => layout [⟨4, opcodeValue c .ld⟩, ⟨3, dr.bits⟩, ⟨9, off⟩]
  | .st sr off => layout [⟨4, opcodeValue c .st⟩, ⟨3, sr.bits⟩, ⟨9, off⟩]
  | .jsr off => layout [⟨4, opcodeValue c .jsr⟩, ⟨1, 1#1⟩, ⟨11, off⟩]
  | .jsrr base => layout [⟨4, opcodeValue c .jsr⟩, ⟨1, 0#1⟩, ⟨2, 0#2⟩, ⟨3, base.bits⟩, ⟨6, 0#6⟩]
  | .andReg dr sr1 sr2 => layout [⟨4, opcodeValue c .and⟩, ⟨3, dr.bits⟩, ⟨3, sr1.bits⟩, ⟨1, 0#1⟩, ⟨2, 0#2⟩, ⟨3, sr2.bits⟩]
  | .andImm dr sr1 imm => layout [⟨4, opcodeValue c .and⟩, ⟨3, dr.bits⟩, ⟨3, sr1.bits⟩, ⟨1, 1#1⟩, ⟨5, imm⟩]
  | .ldr dr base off => layout [⟨4, opcodeValue c .ldr⟩, ⟨3, dr.bits⟩, ⟨3, base.bits⟩, ⟨6, off⟩]
  | .str sr base off => layout [⟨4, opcodeValue c .str⟩, ⟨3, sr.bits⟩, ⟨3, base.bits⟩, ⟨6, off⟩]
  | .rti => layout [⟨4, opcodeValue c .rti⟩, ⟨12, 0#12⟩]
  | .not dr sr1 => layout [⟨4, opcodeValue c .not⟩, ⟨3, dr.bits⟩, ⟨3, sr1.bits⟩, ⟨6, 0x3F#6⟩]
  | .ldi dr off => layout [⟨4, opcodeValue c .ldi⟩, ⟨3, dr.bits⟩, ⟨9, off⟩]
  | .sti sr off => layout [⟨4, opcodeValue c .sti⟩, ⟨3, sr.bits⟩, ⟨9, off⟩]
  | .jmp base => layout [⟨4, opcodeValue c .jmp⟩, ⟨3, 0#3⟩, ⟨3, base.bits⟩, ⟨6, 0#6⟩]
  | .res => layout [⟨4, opcodeValue c .res⟩, ⟨12, 0#12⟩]
  | .lea dr off => layout [⟨4, opcodeValue c .lea⟩, ⟨3, dr.bits⟩, ⟨9, off⟩]
  | .trapGetc => encodeTrap c (trapVector c .getc)
  | .trapOut => encodeTrap c (trapVector c .out)
  | .trapPuts => encodeTrap c (trapVector c .puts)
  | .trapIn => encodeTrap c (trapVector c .inp)
  | .trapPutsp => encodeTrap c (trapVector c .putsp)
  | .trapHalt => encodeTrap c (trapVector c .halt)
  | .trapUnlisted00 v => encodeTrap c v
  | .trapUnlisted26 v => encodeTrap c v
  | .trapUnlisted28 v => encodeTrap c v
  | .trapUnlisted30 v => encodeTrap c v
  | .trapUnlisted40 v => encodeTrap c v
  | .trapUnlisted80 v => encodeTrap c v

/-- The mask and the match of an instruction's row in spec/opcode_table.json, which holds for the default maps: a word `w` selects the row when
`w &&& mask = match` (R61). -/
def tableRow : Instr → Word × Word
  | .br _ _ _ _ => (0xF000#16, 0x0000#16)
  | .addReg _ _ _ => (0xF020#16, 0x1000#16)
  | .addImm _ _ _ => (0xF020#16, 0x1020#16)
  | .ld _ _ => (0xF000#16, 0x2000#16)
  | .st _ _ => (0xF000#16, 0x3000#16)
  | .jsr _ => (0xF800#16, 0x4800#16)
  | .jsrr _ => (0xF800#16, 0x4000#16)
  | .andReg _ _ _ => (0xF020#16, 0x5000#16)
  | .andImm _ _ _ => (0xF020#16, 0x5020#16)
  | .ldr _ _ _ => (0xF000#16, 0x6000#16)
  | .str _ _ _ => (0xF000#16, 0x7000#16)
  | .rti => (0xF000#16, 0x8000#16)
  | .not _ _ => (0xF000#16, 0x9000#16)
  | .ldi _ _ => (0xF000#16, 0xA000#16)
  | .sti _ _ => (0xF000#16, 0xB000#16)
  | .jmp _ => (0xF000#16, 0xC000#16)
  | .res => (0xF000#16, 0xD000#16)
  | .lea _ _ => (0xF000#16, 0xE000#16)
  | .trapGetc => (0xF0FF#16, 0xF020#16)
  | .trapOut => (0xF0FF#16, 0xF021#16)
  | .trapPuts => (0xF0FF#16, 0xF022#16)
  | .trapIn => (0xF0FF#16, 0xF023#16)
  | .trapPutsp => (0xF0FF#16, 0xF024#16)
  | .trapHalt => (0xF0FF#16, 0xF025#16)
  | .trapUnlisted00 _ => (0xF0E0#16, 0xF000#16)
  | .trapUnlisted26 _ => (0xF0FE#16, 0xF026#16)
  | .trapUnlisted28 _ => (0xF0F8#16, 0xF028#16)
  | .trapUnlisted30 _ => (0xF0F0#16, 0xF030#16)
  | .trapUnlisted40 _ => (0xF0C0#16, 0xF040#16)
  | .trapUnlisted80 _ => (0xF080#16, 0xF080#16)

/-- The bits of an instruction's row that the decoder ignores, marked x in R57 (R58). -/
def ignoredBits : Instr → Word
  | .br _ _ _ _ => 0x0000#16
  | .addReg _ _ _ => 0x0018#16
  | .addImm _ _ _ => 0x0000#16
  | .ld _ _ => 0x0000#16
  | .st _ _ => 0x0000#16
  | .jsr _ => 0x0000#16
  | .jsrr _ => 0x063F#16
  | .andReg _ _ _ => 0x0018#16
  | .andImm _ _ _ => 0x0000#16
  | .ldr _ _ _ => 0x0000#16
  | .str _ _ _ => 0x0000#16
  | .rti => 0x0FFF#16
  | .not _ _ => 0x003F#16
  | .ldi _ _ => 0x0000#16
  | .sti _ _ => 0x0000#16
  | .jmp _ => 0x0E3F#16
  | .res => 0x0FFF#16
  | .lea _ _ => 0x0000#16
  | .trapGetc => 0x0F00#16
  | .trapOut => 0x0F00#16
  | .trapPuts => 0x0F00#16
  | .trapIn => 0x0F00#16
  | .trapPutsp => 0x0F00#16
  | .trapHalt => 0x0F00#16
  | .trapUnlisted00 _ => 0x0F00#16
  | .trapUnlisted26 _ => 0x0F00#16
  | .trapUnlisted28 _ => 0x0F00#16
  | .trapUnlisted30 _ => 0x0F00#16
  | .trapUnlisted40 _ => 0x0F00#16
  | .trapUnlisted80 _ => 0x0F00#16

/-- The thirty rows of spec/opcode_table.json as masks and matches, in the table's order (R61). -/
def opcodeTable : List (Word × Word) :=
  [(0xF000#16, 0x0000#16), (0xF020#16, 0x1000#16), (0xF020#16, 0x1020#16), (0xF000#16, 0x2000#16), (0xF000#16, 0x3000#16),
   (0xF800#16, 0x4800#16), (0xF800#16, 0x4000#16), (0xF020#16, 0x5000#16), (0xF020#16, 0x5020#16), (0xF000#16, 0x6000#16)] ++
  [(0xF000#16, 0x7000#16), (0xF000#16, 0x8000#16), (0xF000#16, 0x9000#16), (0xF000#16, 0xA000#16), (0xF000#16, 0xB000#16),
   (0xF000#16, 0xC000#16), (0xF000#16, 0xD000#16), (0xF000#16, 0xE000#16), (0xF0FF#16, 0xF020#16), (0xF0FF#16, 0xF021#16)] ++
  [(0xF0FF#16, 0xF022#16), (0xF0FF#16, 0xF023#16), (0xF0FF#16, 0xF024#16), (0xF0FF#16, 0xF025#16), (0xF0E0#16, 0xF000#16),
   (0xF0FE#16, 0xF026#16), (0xF0F8#16, 0xF028#16), (0xF0F0#16, 0xF030#16), (0xF0C0#16, 0xF040#16), (0xF080#16, 0xF080#16)]

/-- The instruction word that `nbits` bits of `w` stand for, the bits above them zero (R50: one 16-bit word; log 22). -/
def tableWord (nbits w : Nat) : Word := BitVec.ofNat 16 (w % 2 ^ nbits)

/-- The instruction this decoder, with the default maps, reads from an instruction whose bits are `w`; no instruction is longer than one word of
16 bits (R50, R62). -/
def decodeTableWord (nbits w : Nat) : Option Instr :=
  if nbits ≤ 16 then some (decode Machine.defaultConfig (tableWord nbits w)) else none

end Sys2Proof
end

