-- ==== Sys2Proof/Machine/State.lean ====
section
/-! DEFINITION. The machine's state as plain data, the reasons a step can stop, and the state after reset. -/

namespace Sys2Proof.Machine

/-- The signal a completed step returns (spec/00_scope.md R3): `cont` is continue (1), `halt` is halt (0). -/
inductive Signal where
  | cont
  | halt
  deriving DecidableEq, Repr

/-- The whole state (spec/10_state.md), the streams of the two devices, and fields of the model's own: the poll answers,
the last signal and the parameters. -/
structure State where
  /-- R0 to R7 (R10). -/
  regs : Regs
  /-- The program counter (R12). -/
  pc : Word
  /-- COND: bit 2 is N, bit 1 is Z, bit 0 is P (R14). -/
  cond : BitVec 3
  /-- The 65536 words of memory, the two keyboard words among them (R18, R20). -/
  mem : Memory
  /-- KbdIn, its listed part: the characters the keyboard still delivers, the next one first (R21, log 5). -/
  kbdIn : List Byte
  /-- KbdIn, its unending part: `some c` is a keyboard that, after the listed characters, delivers `c` without end (a key held
  down); `none` is one that delivers no more (R21, R172, U6, log 5). -/
  kbdHeld : Option Byte
  /-- The answers of the coming polls that are fixed one by one as inputs, true for a key found ready (R5, R21, log 6). -/
  kbdPolls : List Bool
  /-- The run of answers that comes after the listed ones, fixed as an input or begun and not over; `none` where the next run
  is still free (R21, log 6). -/
  pollRun : Option PollRun
  /-- How many runs of answers are over: the argument of the free value `Config.freePollRun` (log 6). -/
  pollCount : Nat
  /-- ConOutLog: what the console has received, oldest first (R22). -/
  conOutLog : List Byte
  /-- The signal the last completed step returned; no step reads it (R3, R165, log 8). -/
  signal : Signal
  /-- The parameters (R7); no step changes them (log 1). -/
  cfg : Config
  deriving DecidableEq, Repr

/-- Why a step ends without a next state. Each reason carries the state the spec describes at that point. -/
inductive Fault where
  /-- Fatal(BadInstruction), raised by RES and RTI only (spec/60_exceptions.md R140). The state is the final state of the
  failed run. Safe: the machine takes no further step there either (log 9). -/
  | badInstruction (s : State)
  /-- Raised by GETC and IN on an empty keyboard: the step does not complete (spec/44_trap.md R112, U6), which the spec calls
  no fault of the machine (R172). The state is the one in which the engine waits. Safe: no next state is claimed (log 7). -/
  | awaitsKey (s : State)
  /-- Raised by PUTS and PUTSP where the service never ends, a hang inside one step (spec/44_trap.md R114, D20), which the
  spec calls no fault of the machine (R172). The state is the one in which the service begins. Safe: no next state is claimed
  (log 10). -/
  | stringUnending (s : State)
  deriving DecidableEq, Repr

/-- Why the model gives an instruction no meaning. -/
inductive Refusal where
  /-- Raised by an arm of `exec` for an instruction not modelled yet; no arm raises it now. Safe. -/
  | notModelled (mnemonic : String)
  deriving DecidableEq, Repr

/-- The outcome of one step. -/
abbrev StepOutcome := Host.Outcome State Fault Refusal

/-- The state after reset for any parameters (spec/10_state.md R24, spec/70_reset_and_hazards.md R160). The keyboard's
stream and answers and the signal are not the spec's to reset: log 5, log 6, log 8 (DESIGN CHOICE). -/
def State.resetOf (c : Config) : State :=
  { regs := c.resetGpr, pc := c.resetPC, cond := c.resetCond, mem := c.initMem, kbdIn := [], kbdHeld := none, kbdPolls := [],
    pollRun := none, pollCount := 0, conOutLog := [], signal := .cont, cfg := c }

/-- The state after reset with the default parameters. -/
def State.reset : State := State.resetOf defaultConfig

end Sys2Proof.Machine
end

