-- ==== Sys2Proof/Machine/Ops.lean ====
section
/-! DEFINITION. The named operations over registers, memory and the two devices, fetching, and the ways a step ends. -/

namespace Sys2Proof

/-- `R[r]` of a register file (spec/10_state.md R10). -/
def Regs.get (g : Regs) : Reg → Word
  | .r0 => g.r0
  | .r1 => g.r1
  | .r2 => g.r2
  | .r3 => g.r3
  | .r4 => g.r4
  | .r5 => g.r5
  | .r6 => g.r6
  | .r7 => g.r7

/-- `R[r] <- v` (R10): no register is hard-wired. -/
def Regs.set (g : Regs) (r : Reg) (v : Word) : Regs :=
  match r with
  | .r0 => { g with r0 := v }
  | .r1 => { g with r1 := v }
  | .r2 => { g with r2 := v }
  | .r3 => { g with r3 := v }
  | .r4 => { g with r4 := v }
  | .r5 => { g with r5 := v }
  | .r6 => { g with r6 := v }
  | .r7 => { g with r7 := v }

/-- The word stored at an address; an unlisted address reads as `unlistedWord` (log 3). -/
def Memory.read : Memory → Nat → Word
  | [], _ => Machine.unlistedWord
  | (k, v) :: m, a => if k = a then v else Memory.read m a

/-- Put `v` at address `k`, before the entries of `m`, unless it is what an unlisted address reads as. -/
def Memory.cons (k : Nat) (v : Word) (m : Memory) : Memory :=
  if v = Machine.unlistedWord then m else (k, v) :: m

/-- Store `v` at an address, keeping the canonical form. -/
def Memory.write : Memory → Nat → Word → Memory
  | [], a, v => Memory.cons a v []
  | (k, w) :: m, a, v =>
    if a < k then Memory.cons a v ((k, w) :: m)
    else if a = k then Memory.cons a v m
    else (k, w) :: Memory.write m a v

/-- The canonical form from address `lo` up: addresses strictly rising and below 65536, no entry `unlistedWord`. -/
def Memory.wfFrom : Nat → Memory → Bool
  | _, [] => true
  | lo, (k, v) :: m => decide (lo ≤ k) && decide (k < 65536) && decide (v ≠ Machine.unlistedWord) && Memory.wfFrom (k + 1) m

/-- The canonical form of memory. -/
def Memory.wf (m : Memory) : Bool := Memory.wfFrom 0 m

/-- What the parameters must satisfy: the two keyboard addresses differ (spec/92_eei_decisions.md D5), INIT_MEM is in
canonical form, and each map gives different names different values. -/
def Config.wf (c : Config) : Bool := decide (c.kbsrAddr ≠ c.kbdrAddr) && Memory.wf c.initMem && c.mapsWf

end Sys2Proof

namespace Sys2Proof.Machine

/-- `w[7:0]`. -/
def lowByte (w : Word) : Byte := w.extractLsb' 0 8

/-- `w[15:8]`. -/
def highByte (w : Word) : Byte := w.extractLsb' 8 8

/-- `zext_16(b)`: eight zero bits above `b` (spec/00_scope.md section 5). -/
def zext16 (b : Byte) : Word := b.zeroExtend 16

/-- `R[r]`. -/
def State.reg (s : State) (r : Reg) : Word := s.regs.get r

/-- `R[r] <- v`, no flag (R10). -/
def State.setReg (s : State) (r : Reg) (v : Word) : State := { s with regs := s.regs.set r v }

/-- `PC <- v` (R12). -/
def State.setPC (s : State) (v : Word) : State := { s with pc := v }

/-- `COND <- c` (R14). -/
def State.setCond (s : State) (c : BitVec 3) : State := { s with cond := c }

/-- The signal a step returns (R3). -/
def State.setSignal (s : State) (g : Signal) : State := { s with signal := g }

/-- `Mem[a]`: the stored word, no side effect (R18). -/
def State.word (s : State) (a : Word) : Word := s.mem.read a.toNat

/-- `MemWrite(a, v)`: a plain store at every address (spec/20_memory.md R33). -/
def memWrite (s : State) (a : Word) (v : Word) : State := { s with mem := s.mem.write a.toNat v }

/-- `ConOut` of the bytes `bs` in order (R22). -/
def conOut (s : State) (bs : List Byte) : State := { s with conOutLog := s.conOutLog ++ bs }

/-- The first answer of a run. -/
def runReady : PollRun → Bool
  | .forever => true
  | .times 0 => false
  | .times (_ + 1) => true

/-- What is left of a run after its first answer; `none` when it is over. -/
def runRest : PollRun → Option PollRun
  | .forever => some .forever
  | .times 0 => none
  | .times (k + 1) => some (.times k)

/-- The run of answers after the listed ones: the one fixed or begun, and else the free one (R21, log 6). -/
def pollRunOf (s : State) : PollRun := s.pollRun.getD (Config.freePollRun s.pollCount)

/-- Whether the coming poll finds the character that is there ready: the answer listed for it, and else the first answer of
the run. Nothing else decides it (R21, D24, log 6). -/
def pollReady (s : State) : Bool :=
  match s.kbdPolls with
  | d :: _ => d
  | [] => runReady (pollRunOf s)

/-- The run that stands after the coming poll: a listed answer leaves it. -/
def nextRun (s : State) : Option PollRun :=
  match s.kbdPolls with
  | _ :: _ => s.pollRun
  | [] => runRest (pollRunOf s)

/-- How many runs are over after the coming poll. -/
def nextCount (s : State) : Nat :=
  match s.kbdPolls with
  | _ :: _ => s.pollCount
  | [] => if runReady (pollRunOf s) then s.pollCount else s.pollCount + 1

/-- The answer of a poll is used up. -/
def State.polled (s : State) : State :=
  { s with kbdPolls := s.kbdPolls.tail, pollRun := nextRun s, pollCount := nextCount s }

/-- The keyboard's stream becomes `cs`. -/
def State.setKbdIn (s : State) (cs : List Byte) : State := { s with kbdIn := cs }

/-- `KbdGet()` (R8, R21): the next character, consumed, and the state after it; a key held down stays. `none` here is the
wait on an empty keyboard (log 7). -/
def kbdGet (s : State) : Option (Byte × State) :=
  match s.kbdIn with
  | c :: cs => some (c, s.setKbdIn cs)
  | [] => match s.kbdHeld with
    | some c => some (c, s)
    | none => none

/-- `KbdPoll()` (R8, R21): `some c` only with the first unconsumed character, which is then consumed; `none` consumes
nothing. With no character there the answer is `none` and none is free (U6). -/
def kbdPoll (s : State) : Option Byte × State :=
  match kbdGet s with
  | none => (none, s)
  | some (c, t) => if pollReady s then (some c, t.polled) else (none, s.polled)

/-- The side effect of reading the keyboard status word (spec/20_memory.md R32, R34; log 11). -/
def statusRead (s : State) : State :=
  match kbdPoll s with
  | (some c, t) => memWrite (memWrite t s.cfg.kbsrAddr 0x8000#16) s.cfg.kbdrAddr (zext16 c)
  | (none, t) => memWrite t s.cfg.kbsrAddr 0x0000#16

/-- `MemRead(a)` (R32): the word read, after the poll where `a` is the status address, and the state it leaves. -/
def memRead (s : State) (a : Word) : Word × State :=
  if a = s.cfg.kbsrAddr then ((statusRead s).word a, statusRead s) else (s.word a, s)

/-- `instr <- MemRead(PC); PC <- PC + 1` (spec/10_state.md R13): the word fetched and the state the instruction runs in. A
fetch at KBSR_ADDR polls (spec/20_memory.md R36, D7): with a key ready it consumes the key, rewrites the two keyboard words
and fetches 0x8000, which with the default maps is RTI. The fatal step then keeps what its fetch did, where R140 says memory
and KbdIn are as before the step (DESIGN CHOICE, log 24). -/
def fetch (s : State) : Word × State :=
  ((memRead s s.pc).1, (memRead s s.pc).2.setPC (s.pc + 1#16))

/-- `return continue` (R3). -/
def retContinue (s : State) : StepOutcome := .next (s.setSignal .cont)

/-- `return halt` (R3, R117); no latch stops a later step (R165, log 8). -/
def retHalt (s : State) : StepOutcome := .next (s.setSignal .halt)

/-- `raise Fatal(BadInstruction)`: no handler runs, nothing is saved, the state is the failed run's last
(spec/60_exceptions.md R140, R145; log 9). It is the state the fetch left, the effects of a fetch at KBSR_ADDR with it
(DESIGN CHOICE, log 24). -/
def raiseFatal (s : State) : StepOutcome := .fault (.badInstruction s)

/-- The entry to every TRAP service: `R[7] <- PC`, and nothing else changes, neither PC nor COND (spec/60_exceptions.md
R144, spec/44_trap.md R110). There is no return operation beside it: the service ends in its own step (R146). -/
def trapEntry (s : State) : State := s.setReg .r7 s.pc

end Sys2Proof.Machine
end

