-- ==== Sys2Proof/Machine/Flags.lean ====
section
/-! DEFINITION. The condition-flag logic. -/

namespace Sys2Proof.Machine

/-- The COND value with only N set, and with only Z, and with only P (spec/10_state.md R14, D3). -/
def condN : BitVec 3 := 0b100#3
def condZ : BitVec 3 := 0b010#3
def condP : BitVec 3 := 0b001#3

/-- The COND value for a 16-bit result (R16). -/
def condOf (v : Word) : BitVec 3 :=
  if v = 0x0000#16 then condZ else if v.getLsbD 15 then condN else condP

/-- `setcc(v)`, the source's update_flags (R16). -/
def setcc (s : State) (v : Word) : State := s.setCond (condOf v)

/-- `R[dr] <- v; setcc(v)`: the end of every flag-setting instruction (R15). -/
def defineReg (s : State) (dr : Reg) (v : Word) : State := setcc (s.setReg dr v) v

/-- The branch test: `nzp & COND` is not zero (spec/30_encoding.md R53, spec/41_control.md R80). -/
def branchTaken (n z p : Bool) (cond : BitVec 3) : Bool :=
  decide ((BitVec.ofBool n ++ BitVec.ofBool z ++ BitVec.ofBool p) &&& cond ≠ 0#3)

end Sys2Proof.Machine
end

