-- ==== Sys2Proof/Machine/Operands.lean ====
section
/-! DEFINITION. Operand forms: sign extension and the addressing modes. -/

namespace Sys2Proof.Machine

/-- `sext_N` of an N-bit field: two's-complement widening to 16 bits (spec/00_scope.md R9). -/
def sext {n : Nat} (f : BitVec n) : Word := f.signExtend 16

/-- PC-relative: `PC + sext(offset)` modulo 65536, `PC` already incremented (spec/42_load.md R94; with an 11-bit offset
spec/41_control.md R84). -/
def pcRelative {n : Nat} (s : State) (off : BitVec n) : Word := s.pc + sext off

/-- Base plus offset: `R[BaseR] + sext_6(offset6)` modulo 65536 (R94). -/
def basePlus (s : State) (base : Reg) (off : BitVec 6) : Word := s.reg base + sext off

/-- Indirect: the pointer word, read through `MemRead` at the PC-relative address, and the state that read leaves (R94). -/
def indirect (s : State) (off : BitVec 9) : Word × State := memRead s (pcRelative s off)

end Sys2Proof.Machine
end

