-- ==== Sys2Proof/Machine/Control.lean ====
section
/-! DEFINITION. BR, JMP, JSR, JSRR (spec/41_control.md). -/

namespace Sys2Proof.Machine

/-- BR (R80). -/
def execBr (n z p : Bool) (off : BitVec 9) (s : State) : StepOutcome :=
  retContinue (if branchTaken n z p s.cond then s.setPC (pcRelative s off) else s)

/-- JMP, and RET with base R7 (R82, R83). -/
def execJmp (base : Reg) (s : State) : StepOutcome :=
  retContinue (s.setPC (s.reg base))

/-- JSR (R84). -/
def execJsr (off : BitVec 11) (s : State) : StepOutcome :=
  retContinue ((s.setReg .r7 s.pc).setPC (pcRelative s off))

/-- JSRR (R85): R7 is written first and the base register read after it, so `JSRR R7` goes to the next instruction (D14,
log 12). -/
def execJsrr (base : Reg) (s : State) : StepOutcome :=
  retContinue ((s.setReg .r7 s.pc).setPC ((s.setReg .r7 s.pc).reg base))

end Sys2Proof.Machine
end

