-- ==== Sys2Proof/Machine/Load.lean ====
section
/-! DEFINITION. LD, LDI, LDR, LEA (spec/42_load.md). -/

namespace Sys2Proof.Machine

/-- Read the word at `ea` through `MemRead` into `dr` and set the flags from it (R94). -/
def loadFrom (s : State) (dr : Reg) (ea : Word) : State :=
  defineReg (memRead s ea).2 dr (memRead s ea).1

/-- LD (R90). -/
def execLd (dr : Reg) (off : BitVec 9) (s : State) : StepOutcome :=
  retContinue (loadFrom s dr (pcRelative s off))

/-- LDI (R91): the pointer is read first, then the word it points to. -/
def execLdi (dr : Reg) (off : BitVec 9) (s : State) : StepOutcome :=
  retContinue (loadFrom (indirect s off).2 dr (indirect s off).1)

/-- LDR (R92). -/
def execLdr (dr base : Reg) (off : BitVec 6) (s : State) : StepOutcome :=
  retContinue (loadFrom s dr (basePlus s base off))

/-- LEA (R93): the address is not dereferenced; the flags are set. -/
def execLea (dr : Reg) (off : BitVec 9) (s : State) : StepOutcome :=
  retContinue (defineReg s dr (pcRelative s off))

end Sys2Proof.Machine
end

