-- ==== Sys2Proof/Machine/Operate.lean ====
section
/-! DEFINITION. ADD, AND, NOT (spec/40_operate.md). -/

namespace Sys2Proof.Machine

/-- ADD, register form (R71); addition modulo 65536 (R70). -/
def execAddReg (dr sr1 sr2 : Reg) (s : State) : StepOutcome :=
  retContinue (defineReg s dr (s.reg sr1 + s.reg sr2))

/-- ADD, immediate form (R72). -/
def execAddImm (dr sr1 : Reg) (imm : BitVec 5) (s : State) : StepOutcome :=
  retContinue (defineReg s dr (s.reg sr1 + sext imm))

/-- AND, register form (R74). -/
def execAndReg (dr sr1 sr2 : Reg) (s : State) : StepOutcome :=
  retContinue (defineReg s dr (s.reg sr1 &&& s.reg sr2))

/-- AND, immediate form (R75). -/
def execAndImm (dr sr1 : Reg) (imm : BitVec 5) (s : State) : StepOutcome :=
  retContinue (defineReg s dr (s.reg sr1 &&& sext imm))

/-- NOT (R77). -/
def execNot (dr sr1 : Reg) (s : State) : StepOutcome :=
  retContinue (defineReg s dr (~~~ s.reg sr1))

end Sys2Proof.Machine
end

