-- ==== Sys2Proof/Machine/Store.lean ====
section
/-! DEFINITION. ST, STI, STR (spec/43_store.md). -/

namespace Sys2Proof.Machine

/-- ST (R100). -/
def execSt (sr : Reg) (off : BitVec 9) (s : State) : StepOutcome :=
  retContinue (memWrite s (pcRelative s off) (s.reg sr))

/-- STI (R101): the pointer is read through `MemRead`, then the word it points to is written. -/
def execSti (sr : Reg) (off : BitVec 9) (s : State) : StepOutcome :=
  retContinue (memWrite (indirect s off).2 (indirect s off).1 ((indirect s off).2.reg sr))

/-- STR (R102). -/
def execStr (sr base : Reg) (off : BitVec 6) (s : State) : StepOutcome :=
  retContinue (memWrite s (basePlus s base off) (s.reg sr))

end Sys2Proof.Machine
end

