-- ==== Sys2Proof/Machine/Trap.lean ====
section
/-! DEFINITION. TRAP and its services (spec/44_trap.md). Each begins with `trapEntry` (R110). -/

namespace Sys2Proof.Machine

/-- Read one character into R0, zero extended, write it to the console if `echo`, and set the flags (R111, R112, R115).
On an empty keyboard the step does not complete (log 7). -/
def readChar (echo : Bool) (s : State) : StepOutcome :=
  match kbdGet s with
  | none => .fault (.awaitsKey s)
  | some (c, t) => retContinue (defineReg (if echo then conOut t [c] else t) .r0 (zext16 c))

/-- The loop of PUTS and PUTSP: read the word at `a`, end at a whole zero word, else write the characters `chars` takes
from it and go on at `a + 1` modulo 65536 (R114, R116). `none` when `fuel` reads have not ended it. -/
def stringLoop (chars : Word → List Byte) : Nat → Word → State → Option State
  | 0, _, _ => none
  | fuel + 1, a, s =>
    if (memRead s a).1 = 0x0000#16 then some (memRead s a).2
    else stringLoop chars fuel (a + 1#16) (conOut (memRead s a).2 (chars (memRead s a).1))

/-- How many answers of a run can be used up. -/
def runLength : PollRun → Nat
  | .forever => 0
  | .times k => k

/-- As many reads as a string that ends can take: each lap of 65536 reads the keyboard status once, and that read ends the
string, uses up a character or an answer, or finds a key held down that every later poll finds ready, after which every lap
is like the one before it (log 10; `stringLoop_never` of Laws/Strings.lean). -/
def stringFuel (s : State) : Nat := 65536 * (s.kbdIn.length + s.kbdPolls.length + runLength (pollRunOf s) + 2)

/-- Where the loop ends, if it does. It is tried first without the run of answers, which may be free, so that a string that
needs none of it evaluates; the two tries agree (`stringEnd_eq` of Laws/Strings.lean). -/
def stringEnd (chars : Word → List Byte) (a : Word) (s : State) : Option State :=
  match stringLoop chars (65536 * (s.kbdIn.length + s.kbdPolls.length + 2)) a s with
  | some t => some t
  | none => stringLoop chars (stringFuel s) a s

/-- A string service: the string starts at the address in R0 (R114, R116); one that never ends is a hang (R114, D20, log 10). -/
def stringService (chars : Word → List Byte) (s : State) : StepOutcome :=
  match stringEnd chars (s.reg .r0) s with
  | some t => retContinue t
  | none => .fault (.stringUnending s)

/-- PUTS: one character a word, its low byte (R114). -/
def putsChars (w : Word) : List Byte := [lowByte w]

/-- PUTSP: the low byte, and then the high byte if it is not zero (R116). -/
def putspChars (w : Word) : List Byte :=
  if highByte w = 0#8 then [lowByte w] else [lowByte w, highByte w]

/-- TRAP x20 (R112). -/
def execTrapGetc (s : State) : StepOutcome := readChar false (trapEntry s)

/-- TRAP x21 (R113). -/
def execTrapOut (s : State) : StepOutcome :=
  retContinue (conOut (trapEntry s) [lowByte ((trapEntry s).reg .r0)])

/-- TRAP x22 (R114). -/
def execTrapPuts (s : State) : StepOutcome := stringService putsChars (trapEntry s)

/-- TRAP x23 (R115): the prompt, then the read with echo. -/
def execTrapIn (s : State) : StepOutcome := readChar true (conOut (trapEntry s) s.cfg.inPrompt)

/-- TRAP x24 (R116). -/
def execTrapPutsp (s : State) : StepOutcome := stringService putspChars (trapEntry s)

/-- TRAP x25 (R117). -/
def execTrapHalt (s : State) : StepOutcome := retHalt (trapEntry s)

/-- TRAP with a vector 0x00 to 0x1F: R7 only (R118, log 13). -/
def execTrapUnlisted00 (s : State) : StepOutcome := retContinue (trapEntry s)

/-- TRAP with vector 0x26 or 0x27: R7 only (R118, log 13). -/
def execTrapUnlisted26 (s : State) : StepOutcome := retContinue (trapEntry s)

/-- TRAP with a vector 0x28 to 0x2F: R7 only (R118, log 13). -/
def execTrapUnlisted28 (s : State) : StepOutcome := retContinue (trapEntry s)

/-- TRAP with a vector 0x30 to 0x3F: R7 only (R118, log 13). -/
def execTrapUnlisted30 (s : State) : StepOutcome := retContinue (trapEntry s)

/-- TRAP with a vector 0x40 to 0x7F: R7 only (R118, log 13). -/
def execTrapUnlisted40 (s : State) : StepOutcome := retContinue (trapEntry s)

/-- TRAP with a vector 0x80 to 0xFF: R7 only (R118, log 13). -/
def execTrapUnlisted80 (s : State) : StepOutcome := retContinue (trapEntry s)

end Sys2Proof.Machine
end

