-- ==== Sys2Proof/Machine/Unsupported.lean ====
section
/-! DEFINITION. The unsupported opcodes RES and RTI (spec/45_unsupported.md). -/

namespace Sys2Proof.Machine

/-- RES (R130): fatal, and it is the only thing the instruction does. -/
def execRes (s : State) : StepOutcome := raiseFatal s

/-- RTI (R131): fatal, exactly as RES. -/
def execRti (s : State) : StepOutcome := raiseFatal s

end Sys2Proof.Machine
end

