-- ==== Sys2Proof/Machine/Step.lean ====
section
/-! DEFINITION. One step, and the host's way of placing the next instruction. -/

namespace Sys2Proof.Machine

/-- One step: fetch and increment PC, decode, execute with the flag update, outcome (spec/00_scope.md R3). -/
def step (s : State) : Host.Outcome State Fault Refusal :=
  exec (decode s.cfg (fetch s).1) (fetch s).2

/-- `s` with the instruction word stored where the next step fetches it, at PC: what the host's load does before a run
(log 21). At the keyboard status address a fetch returns the poll's answer instead of any stored word (R36, log 22). -/
def State.withFetchWord (s : State) (nbits w : Nat) : State :=
  memWrite s s.pc (tableWord nbits w)

end Sys2Proof.Machine
end

