-- ==== Sys2Proof/Machine/HostPort.lean ====
section
/-! DEFINITION. What the host does to the machine (spec/70_reset_and_hazards.md R163, R166): the load before the first step,
and typing a key between steps. -/

namespace Sys2Proof.Machine

/-- The big-endian words of an image's bytes; a last odd byte is no word (R163, spec/20_memory.md R31, log 21). -/
def imageWords : List Byte → List Word
  | hi :: lo :: rest => (hi ++ lo) :: imageWords rest
  | _ => []

/-- Write words to contiguous addresses from `a` up, stopping where memory ends: no wrap (R163). -/
def loadWords : Nat → List Word → Memory → Memory
  | _, [], m => m
  | a, w :: ws, m => if a < 65536 then loadWords (a + 1) ws (m.write a w) else m

/-- The host's image load: the first word is the origin, the others go to storage from there; nothing else is touched
(R163). -/
def State.loadImage (s : State) (image : List Byte) : State :=
  match imageWords image with
  | [] => s
  | origin :: ws => { s with mem := loadWords origin.toNat ws s.mem }

/-- The operator types a character: it joins the end of the listed part of KbdIn (R166, log 5). -/
def State.hostType (s : State) (c : Byte) : State := s.setKbdIn (s.kbdIn ++ [c])

end Sys2Proof.Machine
end

