-- ==== Sys2Proof/WellFormed.lean ====
section
/-! DEFINITION. Which terms of `Instr` stand for an instruction of the machine. -/

namespace Sys2Proof

/-- The vector lies in the range `lo` to `hi`. -/
def vectorIn (lo hi : Nat) (v : BitVec 8) : Bool :=
  decide (lo ≤ v.toNat) && decide (v.toNat ≤ hi)

/-- The vector is none of the six services' and lies in the range `lo` to `hi`. -/
def unlistedIn (c : Config) (lo hi : Nat) (v : BitVec 8) : Bool :=
  (serviceOf c v).isNone && vectorIn lo hi v

/-- A register selector, an offset and an immediate are in range by their types; an unlisted trap is well formed when its
vector is no service's and lies in the range of its own row of spec/opcode_table.json (spec/30_encoding.md R61). With the
default TRAP_MAP the first row is 0x00 to 0x1F; with another it also holds those of 0x20 to 0x25 that are unlisted. -/
def Instr.wellFormed (c : Config) : Instr → Bool
  | .br _ _ _ _ => true
  | .addReg _ _ _ => true
  | .addImm _ _ _ => true
  | .ld _ _ => true
  | .st _ _ => true
  | .jsr _ => true
  | .jsrr _ => true
  | .andReg _ _ _ => true
  | .andImm _ _ _ => true
  | .ldr _ _ _ => true
  | .str _ _ _ => true
  | .rti => true
  | .not _ _ => true
  | .ldi _ _ => true
  | .sti _ _ => true
  | .jmp _ => true
  | .res => true
  | .lea _ _ => true
  | .trapGetc => true
  | .trapOut => true
  | .trapPuts => true
  | .trapIn => true
  | .trapPutsp => true
  | .trapHalt => true
  | .trapUnlisted00 v => unlistedIn c 0x00 0x25 v
  | .trapUnlisted26 v => unlistedIn c 0x26 0x27 v
  | .trapUnlisted28 v => unlistedIn c 0x28 0x2F v
  | .trapUnlisted30 v => unlistedIn c 0x30 0x3F v
  | .trapUnlisted40 v => unlistedIn c 0x40 0x7F v
  | .trapUnlisted80 v => unlistedIn c 0x80 0xFF v

end Sys2Proof
end

