-- ==== Sys2Proof/Safety.lean ====
section
/-! DEFINITION. What counts as a safe step and a run, the machine's invariant, and the terms that claims use. -/

namespace Sys2Proof.Machine

/-! ### Steps and runs -/

/-- The step completes: no fatal outcome, no wait, no refusal. -/
def StepSafe (s : State) : Prop := ∃ t, step s = .next t

/-- Where a free run of some steps stands (spec/70_reset_and_hazards.md R165). Only `halted` and `failed` are ends of a run:
a run that waits or hangs inside a step has not ended and has not failed (R172). -/
inductive RunEnd where
  /-- Every step so far has continued. -/
  | running (s : State)
  /-- Ended normally, after HALT. -/
  | halted (s : State)
  /-- Failed at RES or RTI; the state is the last one, and no successful final state. -/
  | failed (s : State)
  /-- In a step that does not complete: GETC or IN with no key typed. -/
  | waiting (s : State)
  /-- In a step that never ends: PUTS or PUTSP with no zero word. -/
  | hanging (s : State)
  | refused (r : Refusal)
  deriving DecidableEq, Repr

/-- The free-running driver: it calls the step until the outcome is not continue, at most `k` times (R165). -/
def freeRun : Nat → State → RunEnd
  | 0, s => .running s
  | k + 1, s =>
    match step s with
    | .next t => match t.signal with
      | .cont => freeRun k t
      | .halt => .halted t
    | .fault (.badInstruction u) => .failed u
    | .fault (.awaitsKey u) => .waiting u
    | .fault (.stringUnending u) => .hanging u
    | .refused r => .refused r

/-- A run that within `k` steps neither fails nor is refused. -/
def SafeRun (k : Nat) (s : State) : Prop := (∀ u, freeRun k s ≠ .failed u) ∧ ∀ r, freeRun k s ≠ .refused r

/-- From `s` to `u` in `k` steps, each of which completes with the signal continue. -/
inductive Continues : Nat → State → State → Prop where
  | zero (s : State) : Continues 0 s s
  | succ {k : Nat} {s t u : State} (h : step s = .next t) (hc : t.signal = .cont) (rest : Continues k t u) :
      Continues (k + 1) s u

/-! ### The invariant -/

/-- Exactly one of the three flags is set (spec/10_state.md R15). -/
def OneFlag (c : BitVec 3) : Prop := c = condN ∨ c = condZ ∨ c = condP

/-- Memory is in canonical form, exactly one flag is set, and the parameters are sound (`Config.wf`). -/
def Inv (s : State) : Prop := s.mem.wf = true ∧ OneFlag s.cond ∧ s.cfg.wf = true

/-! ### What a claim says about two states -/

/-- The flags by name (R14). -/
def State.flagN (s : State) : Bool := s.cond.getLsbD 2
def State.flagZ (s : State) : Bool := s.cond.getLsbD 1
def State.flagP (s : State) : Bool := s.cond.getLsbD 0

/-- The flags report the two's-complement sign of `v` (R16). -/
def FlagsSay (s : State) (v : Word) : Prop :=
  (s.flagN = true ↔ v.toInt < 0) ∧ (s.flagZ = true ↔ v.toInt = 0) ∧ (s.flagP = true ↔ 0 < v.toInt)

/-- Every register outside `rs` is unchanged. -/
def SameRegsBut (rs : List Reg) (s t : State) : Prop := ∀ q, q ∉ rs → t.reg q = s.reg q

/-- Every word of memory reads as before. -/
def SameMemory (s t : State) : Prop := ∀ a, t.word a = s.word a

/-- The keyboard's stream and its poll answers are unchanged. -/
def SameKeyboard (s t : State) : Prop :=
  t.kbdIn = s.kbdIn ∧ t.kbdHeld = s.kbdHeld ∧ t.kbdPolls = s.kbdPolls ∧ t.pollRun = s.pollRun ∧
    t.pollCount = s.pollCount

/-- `c` is the first unconsumed character of KbdIn, listed or held, and `cs` is what is listed once it is consumed (R21). -/
def NextKey (s : State) (c : Byte) (cs : List Byte) : Prop :=
  s.kbdIn = c :: cs ∨ (s.kbdIn = [] ∧ s.kbdHeld = some c ∧ cs = [])

/-- KbdIn is empty: no character is there and none will come (U6). -/
def NoKey (s : State) : Prop := s.kbdIn = [] ∧ s.kbdHeld = none

/-- Nothing has changed but registers in `rs`, COND and PC; the step's signal is continue. -/
def OnlyRegs (rs : List Reg) (s t : State) : Prop :=
  SameRegsBut rs s t ∧ SameMemory s t ∧ SameKeyboard s t ∧ t.conOutLog = s.conOutLog ∧ t.cfg = s.cfg ∧ t.signal = .cont

/-- Nothing has changed but the word at `a`; the step's signal is continue. -/
def OnlyWord (a : Word) (s t : State) : Prop :=
  SameRegsBut [] s t ∧ (∀ b, b ≠ a → t.word b = s.word b) ∧ SameKeyboard s t ∧ t.conOutLog = s.conOutLog ∧ t.cfg = s.cfg ∧
    t.signal = .cont ∧ t.cond = s.cond ∧ t.pc = s.pc

/-- From state `u`, the word at `ea` has been read through `MemRead` into `dr` and the flags set from it; nothing else has
changed but what the read itself changes, which is nothing unless `ea` is the keyboard status address (spec/42_load.md R94). -/
def Loaded (dr : Reg) (ea : Word) (u t : State) : Prop :=
  t.reg dr = (memRead u ea).1 ∧ FlagsSay t (t.reg dr) ∧ OnlyRegs [dr] (memRead u ea).2 t ∧ SameRegsBut [dr] u t ∧
    t.pc = u.pc ∧ (ea ≠ u.cfg.kbsrAddr → t.reg dr = u.word ea ∧ OnlyRegs [dr] u t)

/-- PUTS and PUTSP without a bound on the reads (spec/44_trap.md R114, R116): the string at `a` is written, from state `s`
to state `t`, each word `w` as the characters `chars w`, up to a whole zero word. -/
inductive StringRun (chars : Word → List Byte) : Word → State → State → Prop where
  | stop {a : Word} {s : State} (h : (memRead s a).1 = 0x0000#16) : StringRun chars a s (memRead s a).2
  | more {a : Word} {s t : State} (h : (memRead s a).1 ≠ 0x0000#16)
      (rest : StringRun chars (a + 1#16) (conOut (memRead s a).2 (chars (memRead s a).1)) t) : StringRun chars a s t

/-! ### The spec's lists of instructions -/

/-- The register whose new value the flags are set from, for the instructions that set them (R15). -/
def flagSource : Instr → Option Reg
  | .addReg dr _ _ | .addImm dr _ _ | .andReg dr _ _ | .andImm dr _ _ | .not dr _ => some dr
  | .ld dr _ | .ldi dr _ | .ldr dr _ _ | .lea dr _ => some dr
  | .trapGetc | .trapIn => some .r0
  | .br .. | .jmp .. | .jsr .. | .jsrr .. | .st .. | .sti .. | .str .. | .res | .rti => none
  | .trapOut | .trapPuts | .trapPutsp | .trapHalt => none
  | .trapUnlisted00 _ | .trapUnlisted26 _ | .trapUnlisted28 _ | .trapUnlisted30 _ | .trapUnlisted40 _ | .trapUnlisted80 _ => none

/-- The instructions that overwrite PC (R12, R13). -/
def writesPC : Instr → Bool
  | .br .. | .jmp .. | .jsr .. | .jsrr .. => true
  | .addReg .. | .addImm .. | .andReg .. | .andImm .. | .not .. | .ld .. | .ldi .. | .ldr .. | .lea .. => false
  | .st .. | .sti .. | .str .. | .res | .rti => false
  | .trapGetc | .trapIn | .trapOut | .trapPuts | .trapPutsp | .trapHalt => false
  | .trapUnlisted00 _ | .trapUnlisted26 _ | .trapUnlisted28 _ | .trapUnlisted30 _ | .trapUnlisted40 _ | .trapUnlisted80 _ => false

/-- The branch instruction, the only reader of COND (R15). -/
def isBr : Instr → Bool
  | .br .. => true
  | .jmp .. | .jsr .. | .jsrr .. => false
  | .addReg .. | .addImm .. | .andReg .. | .andImm .. | .not .. | .ld .. | .ldi .. | .ldr .. | .lea .. => false
  | .st .. | .sti .. | .str .. | .res | .rti => false
  | .trapGetc | .trapIn | .trapOut | .trapPuts | .trapPutsp | .trapHalt => false
  | .trapUnlisted00 _ | .trapUnlisted26 _ | .trapUnlisted28 _ | .trapUnlisted30 _ | .trapUnlisted40 _ | .trapUnlisted80 _ => false

/-- The stores (spec/43_store.md R103). -/
def isStore : Instr → Bool
  | .st .. | .sti .. | .str .. => true
  | .br .. | .jmp .. | .jsr .. | .jsrr .. => false
  | .addReg .. | .addImm .. | .andReg .. | .andImm .. | .not .. | .ld .. | .ldi .. | .ldr .. | .lea .. => false
  | .res | .rti => false
  | .trapGetc | .trapIn | .trapOut | .trapPuts | .trapPutsp | .trapHalt => false
  | .trapUnlisted00 _ | .trapUnlisted26 _ | .trapUnlisted28 _ | .trapUnlisted30 _ | .trapUnlisted40 _ | .trapUnlisted80 _ => false

/-- TRAP with any vector (spec/44_trap.md R110). -/
def isTrap : Instr → Bool
  | .trapGetc | .trapIn | .trapOut | .trapPuts | .trapPutsp | .trapHalt => true
  | .trapUnlisted00 _ | .trapUnlisted26 _ | .trapUnlisted28 _ | .trapUnlisted30 _ | .trapUnlisted40 _ | .trapUnlisted80 _ => true
  | .br .. | .jmp .. | .jsr .. | .jsrr .. => false
  | .addReg .. | .addImm .. | .andReg .. | .andImm .. | .not .. | .ld .. | .ldi .. | .ldr .. | .lea .. => false
  | .st .. | .sti .. | .str .. | .res | .rti => false

/-- The services that write to the console (spec/00_scope.md R8 (c)). -/
def writesConsole : Instr → Bool
  | .trapOut | .trapPuts | .trapIn | .trapPutsp => true
  | .trapGetc | .trapHalt => false
  | .trapUnlisted00 _ | .trapUnlisted26 _ | .trapUnlisted28 _ | .trapUnlisted30 _ | .trapUnlisted40 _ | .trapUnlisted80 _ => false
  | .br .. | .jmp .. | .jsr .. | .jsrr .. => false
  | .addReg .. | .addImm .. | .andReg .. | .andImm .. | .not .. | .ld .. | .ldi .. | .ldr .. | .lea .. => false
  | .st .. | .sti .. | .str .. | .res | .rti => false

/-- The instructions whose meaning reads memory through `MemRead` after the fetch (spec/20_memory.md R36). -/
def readsMemory : Instr → Bool
  | .ld .. | .ldi .. | .ldr .. | .sti .. | .trapPuts | .trapPutsp => true
  | .trapOut | .trapIn | .trapGetc | .trapHalt => false
  | .trapUnlisted00 _ | .trapUnlisted26 _ | .trapUnlisted28 _ | .trapUnlisted30 _ | .trapUnlisted40 _ | .trapUnlisted80 _ => false
  | .br .. | .jmp .. | .jsr .. | .jsrr .. => false
  | .addReg .. | .addImm .. | .andReg .. | .andImm .. | .not .. | .lea .. => false
  | .st .. | .str .. | .res | .rti => false

/-- The registers an instruction may write, the implicit ones among them (spec/10_state.md R11). -/
def writesRegs : Instr → List Reg
  | .addReg dr _ _ | .addImm dr _ _ | .andReg dr _ _ | .andImm dr _ _ | .not dr _ => [dr]
  | .ld dr _ | .ldi dr _ | .ldr dr _ _ | .lea dr _ => [dr]
  | .trapGetc | .trapIn => [.r0, .r7]
  | .jsr .. | .jsrr .. => [.r7]
  | .trapOut | .trapPuts | .trapPutsp | .trapHalt => [.r7]
  | .trapUnlisted00 _ | .trapUnlisted26 _ | .trapUnlisted28 _ | .trapUnlisted30 _ | .trapUnlisted40 _ | .trapUnlisted80 _ => [.r7]
  | .br .. | .jmp .. | .st .. | .sti .. | .str .. | .res | .rti => []

end Sys2Proof.Machine
end

