-- ==== Sys2Proof/Certificates/Slice0/Obligations.lean ====
section
/-! DEFINITION. The statements for the provers. -/

open Sys2Proof Sys2Proof.Machine

/-- O1. spec/30_encoding.md sections 4 and 7, for every map of R7. The field positions and default values are D1 to D4 (log 2). -/
def Obligations.DecodeOfEncodeIsTheInstruction : Prop :=
  ∀ (c : Config) (i : Instr), c.mapsWf = true → i.wellFormed c = true → decode c (encode c i) = i

/-- O2. spec/30_encoding.md R50, R61: decoding is total. With the default maps (D1, D4; log 2) an unlisted vector falls in its own row of six;
under another TRAP_MAP a vector 0x20 to 0x25 left unlisted counts with the first row, the model's choice (log 13, DESIGN CHOICE).
decodeTableWord is the host's entry (log 22, DESIGN CHOICE), with the default maps (log 2). -/
def Obligations.EveryWordDecodesToAWellFormedInstruction : Prop :=
  ∀ (c : Config) (w : Word),
    (decode c w).wellFormed c = true ∧ decodeTableWord 16 w.toNat = some (decode defaultConfig w)

/-- O3. spec/30_encoding.md section 7: the table has 30 rows and every word selects exactly one. Rests on D1 to D4 (log 2). -/
def Obligations.EveryWordSelectsExactlyItsRowOfTheTable : Prop :=
  ∀ w : Word, opcodeTable.filter (fun r => decide (w &&& r.1 = r.2)) = [tableRow (decode defaultConfig w)]

/-- O4. spec/30_encoding.md section 5, the bits marked x (decision D26, log 14). -/
def Obligations.IgnoredBitsHaveNoEffect : Prop :=
  ∀ (c : Config) (w w' : Word),
    w' &&& ~~~ (ignoredBits (decode c w)) = w &&& ~~~ (ignoredBits (decode c w)) → decode c w' = decode c w

/-- O5. spec/30_encoding.md sections 4 and 5: no bit that matters is lost (logs 2 and 14). -/
def Obligations.EncodeOfDecodeKeepsEveryBitThatMatters : Prop :=
  ∀ (c : Config) (w : Word), c.mapsWf = true →
    encode c (decode c w) &&& ~~~ (ignoredBits (decode c w)) = w &&& ~~~ (ignoredBits (decode c w))

/-- O6. spec/95_test_vectors.md Part 2: the example words of every family, with the default maps (log 2). -/
def Obligations.SpecExampleWordsDecode : Prop :=
  decode defaultConfig 0x1642#16 = .addReg .r3 .r1 .r2 ∧ decode defaultConfig 0x103D#16 = .addImm .r0 .r0 0b11101#5 ∧
  decode defaultConfig 0x5470#16 = .andImm .r2 .r1 0b10000#5 ∧ decode defaultConfig 0x9B3F#16 = .not .r5 .r4 ∧
  decode defaultConfig 0x03FD#16 = .br false false true 0x1FD#9 ∧ decode defaultConfig 0xC1C0#16 = .jmp .r7 ∧
  decode defaultConfig 0x4C00#16 = .jsr 0x400#11 ∧ decode defaultConfig 0x4080#16 = .jsrr .r2 ∧
  decode defaultConfig 0x260A#16 = .ld .r3 10#9 ∧ decode defaultConfig 0xA809#16 = .ldi .r4 9#9 ∧
  decode defaultConfig 0x6460#16 = .ldr .r2 .r1 0b100000#6 ∧ decode defaultConfig 0xE20B#16 = .lea .r1 11#9 ∧
  decode defaultConfig 0x3A07#16 = .st .r5 7#9 ∧ decode defaultConfig 0xB407#16 = .sti .r2 7#9 ∧
  decode defaultConfig 0x787F#16 = .str .r4 .r1 0b111111#6 ∧ decode defaultConfig 0xF025#16 = .trapHalt ∧
  decode defaultConfig 0xF125#16 = .trapHalt ∧ decode defaultConfig 0xF0FF#16 = .trapUnlisted80 0xFF#8 ∧
  decode defaultConfig 0xDABC#16 = .res ∧ decode defaultConfig 0x8000#16 = .rti

/-- O7. spec/00_scope.md R9, formula and testable property. -/
def Obligations.SignExtensionIsTwosComplementWidening : Prop :=
  ∀ N ∈ [5, 6, 9, 11], ∀ v : Word,
    (sext (field v 0 N)).toNat = (if v.getLsbD (N - 1) = true then v.toNat % 2 ^ N + (65536 - 2 ^ N) else v.toNat % 2 ^ N) ∧
    (∀ i, N ≤ i → i < 16 → (sext (field v 0 N)).getLsbD i = v.getLsbD (N - 1)) ∧
    (∀ i, i < N → (sext (field v 0 N)).getLsbD i = v.getLsbD i)

/-- O8. spec/10_state.md R10: no register is hard-wired, none has an alias. -/
def Obligations.RegisterFileReadsWhatWasWritten : Prop :=
  (∀ (s : State) (r : Reg) (v : Word), (s.setReg r v).reg r = v ∧ SameRegsBut [r] s (s.setReg r v) ∧
      (s.setReg r v).pc = s.pc ∧ (s.setReg r v).cond = s.cond ∧ SameMemory s (s.setReg r v) ∧ SameKeyboard s (s.setReg r v) ∧
      (s.setReg r v).conOutLog = s.conOutLog) ∧
  (∀ b c : BitVec 3, Reg.ofBits b = Reg.ofBits c → b = c) ∧ (∀ r : Reg, ∃ b, Reg.ofBits b = r ∧ r.bits = b)

/-- O9. spec/10_state.md section 3. The layout of COND is the spec's decision D3; only the pairing of flag and test bit is observable. -/
def Obligations.SetccReportsTheSign : Prop :=
  ∀ (s : State) (v : Word),
    (setcc s v).cond = (if v = 0x0000#16 then 0b010#3 else if v.getLsbD 15 = true then 0b100#3 else 0b001#3) ∧
    FlagsSay (setcc s v) v ∧ OneFlag (setcc s v).cond ∧ SameRegsBut [] s (setcc s v) ∧ (setcc s v).pc = s.pc ∧
    SameMemory s (setcc s v) ∧ SameKeyboard s (setcc s v) ∧ (setcc s v).conOutLog = s.conOutLog

/-- O10. spec/10_state.md R15, with the resolution C1 of spec/90_conflicts.md. -/
def Obligations.CondIsWrittenAndReadOnlyAsListed : Prop :=
  (∀ (i : Instr) (s t : State), exec i s = .next t →
      (∀ r, flagSource i = some r → OneFlag t.cond ∧ FlagsSay t (t.reg r)) ∧
      (flagSource i = none → t.cond = s.cond) ∧ (OneFlag s.cond → OneFlag t.cond)) ∧
  (∀ (i : Instr) (s t : State) (c : BitVec 3), isBr i = false → exec i s = .next t →
      exec i (s.setCond c) = .next (if (flagSource i).isSome then t else t.setCond c))

/-- O11. spec/10_state.md R12, R13; the wrap is the spec's decision D13 (log 15). -/
def Obligations.PcAdvancesByOneUnlessATransferWritesIt : Prop :=
  ∀ s t : State, step s = .next t → writesPC (decode s.cfg (memRead s s.pc).1) = false → t.pc.toNat = (s.pc.toNat + 1) % 65536

/-- O12. spec/10_state.md R11 (the table of registers written), R23 (overlay off, log 20). -/
def Obligations.RegistersAreWrittenOnlyAsListed : Prop :=
  ∀ (i : Instr) (s t : State), exec i s = .next t → SameRegsBut (writesRegs i) s t ∧ t.cfg = s.cfg

/-- O13. spec/20_memory.md R33, R36, R38; which reads are intercepted is the spec's decision D7 (log 11). -/
def Obligations.MemoryChangesOnlyByStoresAndStatusReads : Prop :=
  ∀ (i : Instr) (s t : State), exec i s = .next t → isStore i = false →
    (readsMemory i = false → SameMemory s t ∧ t.kbdPolls = s.kbdPolls ∧ t.pollRun = s.pollRun ∧ t.pollCount = s.pollCount) ∧
    (∀ a, a ≠ s.cfg.kbsrAddr → a ≠ s.cfg.kbdrAddr → t.word a = s.word a)

/-- O14. spec/00_scope.md R8 (b), (c); spec/10_state.md R21, R22. HALT and the console: log 19. -/
def Obligations.ConsoleIsWrittenOnlyByTheOutputServices : Prop :=
  ∀ (i : Instr) (s t : State), exec i s = .next t →
    (writesConsole i = false → t.conOutLog = s.conOutLog) ∧
    (readsMemory i = false → i ≠ .trapGetc → i ≠ .trapIn → t.kbdIn = s.kbdIn)

/-- O15. spec/40_operate.md R71, R72; the wrap of R70 is the spec's decision D12 (log 15). -/
def Obligations.AddWritesTheSumModulo65536 : Prop :=
  (∀ (dr sr1 sr2 : Reg) (s : State), ∃ t, exec (.addReg dr sr1 sr2) s = .next t ∧
      (t.reg dr).toNat = ((s.reg sr1).toNat + (s.reg sr2).toNat) % 65536 ∧
      FlagsSay t (t.reg dr) ∧ OnlyRegs [dr] s t ∧ t.pc = s.pc) ∧
  (∀ (dr sr1 : Reg) (imm : BitVec 5) (s : State), ∃ t, exec (.addImm dr sr1 imm) s = .next t ∧
      t.reg dr = BitVec.ofInt 16 ((s.reg sr1).toInt + imm.toInt) ∧
      FlagsSay t (t.reg dr) ∧ OnlyRegs [dr] s t ∧ t.pc = s.pc)

/-- O16. spec/40_operate.md R73 (with R74, R75) and R76 (with R77). -/
def Obligations.AndAndNotWorkBitByBit : Prop :=
  (∀ (dr sr1 sr2 : Reg) (s : State), ∃ t, exec (.andReg dr sr1 sr2) s = .next t ∧
      (∀ i, i < 16 → ((t.reg dr).getLsbD i = true ↔ (s.reg sr1).getLsbD i = true ∧ (s.reg sr2).getLsbD i = true)) ∧
      FlagsSay t (t.reg dr) ∧ OnlyRegs [dr] s t ∧ t.pc = s.pc) ∧
  (∀ (dr sr1 : Reg) (imm : BitVec 5) (s : State), ∃ t, exec (.andImm dr sr1 imm) s = .next t ∧
      (∀ i, i < 16 → ((t.reg dr).getLsbD i = true ↔ (s.reg sr1).getLsbD i = true ∧ imm.getLsbD (min i 4) = true)) ∧
      FlagsSay t (t.reg dr) ∧ OnlyRegs [dr] s t ∧ t.pc = s.pc) ∧
  (∀ (dr sr1 : Reg) (s : State), ∃ t, exec (.not dr sr1) s = .next t ∧
      (∀ i, i < 16 → ((t.reg dr).getLsbD i = true ↔ (s.reg sr1).getLsbD i = false)) ∧
      (t.reg dr).toNat = 0xFFFF - (s.reg sr1).toNat ∧ FlagsSay t (t.reg dr) ∧ OnlyRegs [dr] s t ∧ t.pc = s.pc)

/-- O17. spec/42_load.md R93, spec/90_conflicts.md C7. -/
def Obligations.LeaWritesTheAddressAndSetsFlags : Prop :=
  ∀ (dr : Reg) (off : BitVec 9) (s : State), ∃ t, exec (.lea dr off) s = .next t ∧
    t.reg dr = BitVec.ofInt 16 (s.pc.toNat + off.toInt) ∧ FlagsSay t (t.reg dr) ∧ OnlyRegs [dr] s t ∧ t.pc = s.pc

/-- O18. spec/42_load.md R90 to R92, R94; that every read is a MemRead is the spec's decision D7 (log 11). -/
def Obligations.LoadsReadTheirAddressingMode : Prop :=
  (∀ (dr : Reg) (off : BitVec 9) (s : State), ∃ t, exec (.ld dr off) s = .next t ∧
      Loaded dr (BitVec.ofInt 16 (s.pc.toNat + off.toInt)) s t) ∧
  (∀ (dr base : Reg) (off : BitVec 6) (s : State), ∃ t, exec (.ldr dr base off) s = .next t ∧
      Loaded dr (BitVec.ofInt 16 ((s.reg base).toNat + off.toInt)) s t) ∧
  (∀ (dr : Reg) (off : BitVec 9) (s : State), ∃ t, exec (.ldi dr off) s = .next t ∧
      Loaded dr (memRead s (BitVec.ofInt 16 (s.pc.toNat + off.toInt))).1
        (memRead s (BitVec.ofInt 16 (s.pc.toNat + off.toInt))).2 t ∧
      SameRegsBut [dr] s t ∧ t.pc = s.pc ∧
      (BitVec.ofInt 16 (s.pc.toNat + off.toInt) ≠ s.cfg.kbsrAddr →
        Loaded dr (s.word (BitVec.ofInt 16 (s.pc.toNat + off.toInt))) s t))

/-- O19. spec/43_store.md R103; that the pointer read of STI polls at KBSR_ADDR is decision D7 (log 11). The premise is the canonical form of memory, an invariant (InvariantIsKeptByEveryStep). -/
def Obligations.StoresWriteOneWordAndNothingElse : Prop :=
  (∀ (sr : Reg) (off : BitVec 9) (s : State), s.mem.wf = true → ∃ t, exec (.st sr off) s = .next t ∧
      t.word (BitVec.ofInt 16 (s.pc.toNat + off.toInt)) = s.reg sr ∧
      OnlyWord (BitVec.ofInt 16 (s.pc.toNat + off.toInt)) s t) ∧
  (∀ (sr base : Reg) (off : BitVec 6) (s : State), s.mem.wf = true → ∃ t, exec (.str sr base off) s = .next t ∧
      t.word (BitVec.ofInt 16 ((s.reg base).toNat + off.toInt)) = s.reg sr ∧
      OnlyWord (BitVec.ofInt 16 ((s.reg base).toNat + off.toInt)) s t) ∧
  (∀ (sr : Reg) (off : BitVec 9) (s : State), s.mem.wf = true → ∃ t, exec (.sti sr off) s = .next t ∧
      t.word (memRead s (BitVec.ofInt 16 (s.pc.toNat + off.toInt))).1 = s.reg sr ∧
      OnlyWord (memRead s (BitVec.ofInt 16 (s.pc.toNat + off.toInt))).1
        (memRead s (BitVec.ofInt 16 (s.pc.toNat + off.toInt))).2 t ∧
      SameRegsBut [] s t ∧ t.cond = s.cond ∧ t.pc = s.pc ∧
      (BitVec.ofInt 16 (s.pc.toNat + off.toInt) ≠ s.cfg.kbsrAddr →
        t.word (s.word (BitVec.ofInt 16 (s.pc.toNat + off.toInt))) = s.reg sr ∧
        OnlyWord (s.word (BitVec.ofInt 16 (s.pc.toNat + off.toInt))) s t))

/-- O20. spec/41_control.md R80. The pairing of n, z, p with N, Z, P is the spec's decision D3. -/
def Obligations.BranchIsTakenWhenATestBitMeetsItsFlag : Prop :=
  ∀ (n z p : Bool) (off : BitVec 9) (s : State), ∃ t, exec (.br n z p off) s = .next t ∧
    ((n = true ∧ s.flagN = true ∨ z = true ∧ s.flagZ = true ∨ p = true ∧ s.flagP = true) →
      t.pc = BitVec.ofInt 16 (s.pc.toNat + off.toInt)) ∧
    (¬ (n = true ∧ s.flagN = true ∨ z = true ∧ s.flagZ = true ∨ p = true ∧ s.flagP = true) → t.pc = s.pc) ∧
    OnlyRegs [] s t ∧ t.cond = s.cond

/-- O21. spec/41_control.md R81 (a) to (c). The clause on 0x0000 is about the default maps only and rests on D1 and D3 (log 2, PRESUMED by
the spec). The steps are those at an address other than KBSR_ADDR (a fetch there is D7, log 11). One flag set is part of the invariant. -/
def Obligations.BranchWithNoTestBitIsANopAndWithAllAlwaysBranches : Prop :=
  (∀ (s : State) (off : BitVec 9), s.pc ≠ s.cfg.kbsrAddr → decode s.cfg (s.word s.pc) = .br false false false off →
      step s = .next ((s.setPC (s.pc + 1#16)).setSignal .cont)) ∧
  (decode defaultConfig 0x0000#16 = .br false false false 0#9) ∧
  (∀ (s : State) (off : BitVec 9), OneFlag s.cond → ∃ t, exec (.br true true true off) s = .next t ∧
      t.pc = BitVec.ofInt 16 (s.pc.toNat + off.toInt)) ∧
  (∀ s : State, OneFlag s.cond → s.pc ≠ s.cfg.kbsrAddr → decode s.cfg (s.word s.pc) = .br true true true 0x1FF#9 →
      ∃ t, step s = .next t ∧ t.pc = s.pc)

/-- O22. spec/41_control.md R82, R84; COND by spec/90_conflicts.md C1. -/
def Obligations.JmpAndJsrTransferAndLink : Prop :=
  (∀ (base : Reg) (s : State), ∃ t, exec (.jmp base) s = .next t ∧ t.pc = s.reg base ∧ OnlyRegs [] s t ∧ t.cond = s.cond) ∧
  (∀ (off : BitVec 11) (s : State), ∃ t, exec (.jsr off) s = .next t ∧ t.reg .r7 = s.pc ∧
      t.pc = BitVec.ofInt 16 (s.pc.toNat + off.toInt) ∧ OnlyRegs [.r7] s t ∧ t.cond = s.cond)

/-- O23. spec/41_control.md section 4; the order of the two effects is the spec's decision D14 (log 12). -/
def Obligations.JsrrWritesTheLinkBeforeItReadsTheBase : Prop :=
  ∀ (base : Reg) (s : State), ∃ t, exec (.jsrr base) s = .next t ∧ t.reg .r7 = s.pc ∧
    (base ≠ .r7 → t.pc = s.reg base) ∧ (base = .r7 → t.pc = s.pc) ∧ OnlyRegs [.r7] s t ∧ t.cond = s.cond

/-- O24. spec/41_control.md R83, R86: no delay slot, and RET returns through R7. -/
def Obligations.CallThenReturnComesBackBehindTheCall : Prop :=
  ∀ (s : State) (off : BitVec 11), s.pc ≠ s.cfg.kbsrAddr → decode s.cfg (s.word s.pc) = .jsr off →
    BitVec.ofInt 16 (s.pc.toNat + 1 + off.toInt) ≠ s.cfg.kbsrAddr →
    decode s.cfg (s.word (BitVec.ofInt 16 (s.pc.toNat + 1 + off.toInt))) = .jmp .r7 →
    ∃ t u, step s = .next t ∧ step t = .next u ∧ u.pc = s.pc + 1#16 ∧ u.reg .r7 = s.pc + 1#16 ∧
      OnlyRegs [.r7] s u ∧ u.cond = s.cond

/-- O25. spec/60_exceptions.md R144: the entry to a TRAP service saves PC in R7 and changes nothing else. For the unlisted vectors R118, decision D15 (log 13); for string reads D7 (log 11). -/
def Obligations.TrapSavesTheNextAddressInR7AndNothingElse : Prop :=
  ∀ (i : Instr) (s t : State), isTrap i = true → exec i s = .next t →
    t.reg .r7 = s.pc ∧ t.pc = s.pc ∧ SameRegsBut [.r0, .r7] s t ∧
    (i ≠ .trapGetc → i ≠ .trapIn → SameRegsBut [.r7] s t ∧ t.cond = s.cond) ∧
    (∀ a, a ≠ s.cfg.kbsrAddr → a ≠ s.cfg.kbdrAddr → t.word a = s.word a) ∧ t.cfg = s.cfg

/-- O26. spec/44_trap.md R112; zero extension is the spec's decision D16 (log 16), the wait D17 (log 7). -/
def Obligations.GetcReadsOneCharacterWithoutEcho : Prop :=
  ∀ (s : State) (c : Byte) (cs : List Byte), NextKey s c cs → ∃ t, exec .trapGetc s = .next t ∧
    (t.reg .r0).toNat = c.toNat ∧ FlagsSay t (t.reg .r0) ∧ t.flagN = false ∧ t.kbdIn = cs ∧ t.kbdHeld = s.kbdHeld ∧ t.reg .r7 = s.pc ∧
    SameRegsBut [.r0, .r7] s t ∧ SameMemory s t ∧ t.conOutLog = s.conOutLog ∧ t.kbdPolls = s.kbdPolls ∧
    t.pollRun = s.pollRun ∧ t.pollCount = s.pollCount ∧ t.pc = s.pc ∧ t.cfg = s.cfg ∧ t.signal = .cont

/-- O27. spec/44_trap.md R115, for every IN_PROMPT (D18, log 17). -/
def Obligations.InPromptsReadsAndEchoes : Prop :=
  ∀ (s : State) (c : Byte) (cs : List Byte), NextKey s c cs → ∃ t, exec .trapIn s = .next t ∧
    t.conOutLog = s.conOutLog ++ s.cfg.inPrompt ++ [c] ∧
    (t.reg .r0).toNat = c.toNat ∧ FlagsSay t (t.reg .r0) ∧ t.flagN = false ∧ t.kbdIn = cs ∧ t.kbdHeld = s.kbdHeld ∧ t.reg .r7 = s.pc ∧
    SameRegsBut [.r0, .r7] s t ∧ SameMemory s t ∧ t.kbdPolls = s.kbdPolls ∧
    t.pollRun = s.pollRun ∧ t.pollCount = s.pollCount ∧ t.pc = s.pc ∧ t.cfg = s.cfg ∧ t.signal = .cont

/-- O28. spec/44_trap.md R112, R115; spec/93_implementation_defined.md U6 (stuck). The form of the wait is the model's, log 7. -/
def Obligations.GetcAndInWaitForAKeyAndAKeyLiftsTheWait : Prop :=
  ∀ s : State, NoKey s →
    exec .trapGetc s = .fault (.awaitsKey (s.setReg .r7 s.pc)) ∧
    exec .trapIn s = .fault (.awaitsKey (conOut (s.setReg .r7 s.pc) s.cfg.inPrompt)) ∧
    ∀ c : Byte, (∃ t, exec .trapGetc (s.hostType c) = .next t ∧ (t.reg .r0).toNat = c.toNat ∧ t.kbdIn = []) ∧
      (∃ t, exec .trapIn (s.hostType c) = .next t ∧ (t.reg .r0).toNat = c.toNat ∧ t.kbdIn = [])

/-- O29. spec/44_trap.md R113. -/
def Obligations.OutWritesTheLowByteOfR0 : Prop :=
  ∀ s : State, ∃ t, exec .trapOut s = .next t ∧
    t.conOutLog = s.conOutLog ++ [BitVec.ofNat 8 ((s.reg .r0).toNat % 256)] ∧ t.reg .r7 = s.pc ∧ SameRegsBut [.r7] s t ∧
    t.cond = s.cond ∧ t.pc = s.pc ∧ SameMemory s t ∧ SameKeyboard s t ∧ t.cfg = s.cfg ∧ t.signal = .cont

/-- O30. spec/44_trap.md R114, R116, with D7 (log 11), D19 (log 18) and D20 (log 15); the form of the hang is the model's (log 10). -/
def Obligations.PutsAndPutspEndAfterTheirWholeStringOrNeverEnd : Prop :=
  ∀ s : State, s.mem.wf = true →
    ((∃ u, StringRun (fun w => [BitVec.ofNat 8 (w.toNat % 256)]) (s.reg .r0) (s.setReg .r7 s.pc) u ∧
        exec .trapPuts s = .next (u.setSignal .cont) ∧ u.reg .r7 = s.pc ∧ SameRegsBut [.r7] s u ∧ u.cond = s.cond ∧
        u.pc = s.pc ∧ u.cfg = s.cfg) ∨
      (exec .trapPuts s = .fault (.stringUnending (s.setReg .r7 s.pc)) ∧
        ¬ ∃ u, StringRun (fun w => [BitVec.ofNat 8 (w.toNat % 256)]) (s.reg .r0) (s.setReg .r7 s.pc) u)) ∧
    ((∃ u, StringRun (fun w => if w.toNat / 256 = 0 then [BitVec.ofNat 8 (w.toNat % 256)]
            else [BitVec.ofNat 8 (w.toNat % 256), BitVec.ofNat 8 (w.toNat / 256)]) (s.reg .r0) (s.setReg .r7 s.pc) u ∧
        exec .trapPutsp s = .next (u.setSignal .cont) ∧ u.reg .r7 = s.pc ∧ SameRegsBut [.r7] s u ∧ u.cond = s.cond ∧
        u.pc = s.pc ∧ u.cfg = s.cfg) ∨
      (exec .trapPutsp s = .fault (.stringUnending (s.setReg .r7 s.pc)) ∧
        ¬ ∃ u, StringRun (fun w => if w.toNat / 256 = 0 then [BitVec.ofNat 8 (w.toNat % 256)]
            else [BitVec.ofNat 8 (w.toNat % 256), BitVec.ofNat 8 (w.toNat / 256)]) (s.reg .r0) (s.setReg .r7 s.pc) u))

/-- O31. spec/44_trap.md R114, R116; where PUTSP starts and its byte order are the spec's decision D19 (log 18). -/
def Obligations.PlainStringsAreWrittenCharacterByCharacter : Prop :=
  ∀ (s : State) (ws : List Word),
    (∀ k, (h : k < ws.length) → s.word (s.reg .r0 + BitVec.ofNat 16 k) = ws[k] ∧ ws[k] ≠ 0x0000#16) →
    s.word (s.reg .r0 + BitVec.ofNat 16 ws.length) = 0x0000#16 →
    (∀ k, k ≤ ws.length → s.reg .r0 + BitVec.ofNat 16 k ≠ s.cfg.kbsrAddr) →
    (∃ t, exec .trapPuts s = .next t ∧
      t.conOutLog = s.conOutLog ++ ws.map (fun w => BitVec.ofNat 8 (w.toNat % 256)) ∧ t.reg .r7 = s.pc ∧
      SameRegsBut [.r7] s t ∧ t.cond = s.cond ∧ t.pc = s.pc ∧ SameMemory s t ∧ SameKeyboard s t ∧ t.cfg = s.cfg ∧
      t.signal = .cont) ∧
    (∃ t, exec .trapPutsp s = .next t ∧
      t.conOutLog = s.conOutLog ++ (ws.map (fun w => if w.toNat / 256 = 0 then [BitVec.ofNat 8 (w.toNat % 256)]
          else [BitVec.ofNat 8 (w.toNat % 256), BitVec.ofNat 8 (w.toNat / 256)])).flatten ∧ t.reg .r7 = s.pc ∧
      SameRegsBut [.r7] s t ∧ t.cond = s.cond ∧ t.pc = s.pc ∧ SameMemory s t ∧ SameKeyboard s t ∧ t.cfg = s.cfg ∧
      t.signal = .cont)

/-- O32. spec/44_trap.md R117, spec/00_scope.md R3; the console by decision D22 (log 19). -/
def Obligations.HaltSignalsTerminationAndOnlyHaltDoes : Prop :=
  (∀ s : State, ∃ t, exec .trapHalt s = .next t ∧ t.signal = .halt ∧ t.reg .r7 = s.pc ∧ SameRegsBut [.r7] s t ∧ t.pc = s.pc ∧
      t.cond = s.cond ∧ SameMemory s t ∧ SameKeyboard s t ∧ t.conOutLog = s.conOutLog ∧ t.cfg = s.cfg) ∧
  (∀ (i : Instr) (s t : State), exec i s = .next t → t.signal = .halt → i = .trapHalt)

/-- O33. spec/44_trap.md R118, the spec's decision D15 (log 13). -/
def Obligations.UnlistedTrapWritesOnlyR7 : Prop :=
  ∀ (v : BitVec 8) (s : State),
    ∀ i ∈ [Instr.trapUnlisted00 v, .trapUnlisted26 v, .trapUnlisted28 v, .trapUnlisted30 v, .trapUnlisted40 v, .trapUnlisted80 v],
    ∃ t, exec i s = .next t ∧ t.reg .r7 = s.pc ∧ OnlyRegs [.r7] s t ∧ t.cond = s.cond ∧ t.pc = s.pc

/-- O34. spec/60_exceptions.md R145, with spec/45_unsupported.md R130, R131: fetched, PC incremented, nothing executed. The state is D21 (log 9), the fetch D7 (logs 11, 24), the wrap D13 (log 15). -/
def Obligations.ResAndRtiAreFatalWithNothingButPcChanged : Prop :=
  (∀ s : State, exec .res s = .fault (.badInstruction s) ∧ exec .rti s = .fault (.badInstruction s)) ∧
  (∀ s : State, (decode s.cfg (memRead s s.pc).1 = .res ∨ decode s.cfg (memRead s s.pc).1 = .rti) →
      ∃ u, step s = .fault (.badInstruction u) ∧ u.pc = s.pc + 1#16 ∧ SameRegsBut [] s u ∧ u.cond = s.cond ∧
        u.conOutLog = s.conOutLog ∧ u.cfg = s.cfg ∧ u.mem = (memRead s s.pc).2.mem ∧ SameKeyboard (memRead s s.pc).2 u ∧
        (s.pc ≠ s.cfg.kbsrAddr → SameMemory s u ∧ SameKeyboard s u))

/-- O35. spec/60_exceptions.md R140, R141; spec/70_reset_and_hazards.md R172. The form of the wait is log 7, of the hang log 10. -/
def Obligations.NothingButResAndRtiRaisesAnException : Prop :=
  ∀ (i : Instr) (s : State),
    (∀ u, exec i s = .fault (.badInstruction u) → i = .res ∨ i = .rti) ∧
    (∀ u, exec i s = .fault (.awaitsKey u) → (i = .trapGetc ∨ i = .trapIn) ∧ NoKey s) ∧
    (∀ u, exec i s = .fault (.stringUnending u) → (i = .trapPuts ∨ i = .trapPutsp) ∧
      (∀ a, a ≠ s.cfg.kbsrAddr → a ≠ s.cfg.kbdrAddr → s.word a ≠ 0x0000#16) ∧ (s.mem.wf = true → s.kbdHeld ≠ none)) ∧
    (∀ r, exec i s ≠ .refused r)

/-- O36. spec/60_exceptions.md R141: all other opcodes always succeed. Where PUTS and PUTSP end: R114, D7, D20 (logs 10, 11). -/
def Obligations.EveryOtherInstructionCompletes : Prop :=
  ∀ (i : Instr) (s : State), i ≠ .res → i ≠ .rti → ((i = .trapGetc ∨ i = .trapIn) → ¬ NoKey s) →
    ((i = .trapPuts ∨ i = .trapPutsp) → (∃ a, a ≠ s.cfg.kbsrAddr ∧ a ≠ s.cfg.kbdrAddr ∧ s.word a = 0x0000#16) ∨
      (s.mem.wf = true ∧ s.kbdHeld = none)) → ∃ t, exec i s = .next t

/-- O37. spec/20_memory.md R32, R34, R35; the exact effect of the status read is the spec's decision D6 (log 11). -/
def Obligations.StatusReadPollsAndEveryOtherReadIsPlain : Prop :=
  (∀ s : State, s.mem.wf = true → s.cfg.kbsrAddr ≠ s.cfg.kbdrAddr →
      (∀ c, (kbdPoll s).1 = some c → (memRead s s.cfg.kbsrAddr).1 = 0x8000#16 ∧
        (memRead s s.cfg.kbsrAddr).2.word s.cfg.kbsrAddr = 0x8000#16 ∧
        ((memRead s s.cfg.kbsrAddr).2.word s.cfg.kbdrAddr).toNat = c.toNat) ∧
      ((kbdPoll s).1 = none → (memRead s s.cfg.kbsrAddr).1 = 0x0000#16 ∧
        (memRead s s.cfg.kbsrAddr).2.word s.cfg.kbsrAddr = 0x0000#16 ∧
        (memRead s s.cfg.kbsrAddr).2.word s.cfg.kbdrAddr = s.word s.cfg.kbdrAddr) ∧
      SameKeyboard (kbdPoll s).2 (memRead s s.cfg.kbsrAddr).2 ∧
      (∀ a, a ≠ s.cfg.kbsrAddr → a ≠ s.cfg.kbdrAddr → (memRead s s.cfg.kbsrAddr).2.word a = s.word a) ∧
      SameRegsBut [] s (memRead s s.cfg.kbsrAddr).2 ∧ (memRead s s.cfg.kbsrAddr).2.pc = s.pc ∧
      (memRead s s.cfg.kbsrAddr).2.cond = s.cond ∧ (memRead s s.cfg.kbsrAddr).2.conOutLog = s.conOutLog ∧
      memRead s s.cfg.kbdrAddr = (s.word s.cfg.kbdrAddr, s)) ∧
  (∀ (s : State) (a : Word), a ≠ s.cfg.kbsrAddr → memRead s a = (s.word a, s))

/-- O38. spec/20_memory.md R33. The premise is the canonical form of memory, an invariant (InvariantIsKeptByEveryStep). -/
def Obligations.WritesArePlainStoresAtEveryAddress : Prop :=
  ∀ (s : State) (a v : Word), s.mem.wf = true →
    (memWrite s a v).word a = v ∧ (∀ b, b ≠ a → (memWrite s a v).word b = s.word b) ∧
    SameRegsBut [] s (memWrite s a v) ∧ (memWrite s a v).pc = s.pc ∧ (memWrite s a v).cond = s.cond ∧
    SameKeyboard s (memWrite s a v) ∧ (memWrite s a v).conOutLog = s.conOutLog ∧
    (∀ v', memWrite (memWrite s a v) a v' = memWrite s a v')

/-- O39. spec/10_state.md R21; the free answer is the spec's decision D24, its fields are the model's (log 6); a key held down is log 5. -/
def Obligations.PollAnswersOnlyTheFirstCharacterAndIsFree : Prop :=
  ∀ s : State,
    (∀ c, (kbdPoll s).1 = some c → NextKey s c (kbdPoll s).2.kbdIn) ∧
    ((kbdPoll s).1 = none → (kbdPoll s).2.kbdIn = s.kbdIn) ∧
    (kbdPoll s).2.kbdHeld = s.kbdHeld ∧ (kbdPoll s).2.pc = s.pc ∧ (kbdPoll s).2.cond = s.cond ∧ (kbdPoll s).2.cfg = s.cfg ∧
    SameRegsBut [] s (kbdPoll s).2 ∧ SameMemory s (kbdPoll s).2 ∧ (kbdPoll s).2.conOutLog = s.conOutLog ∧
    (∀ c cs ds, NextKey s c cs → s.kbdPolls = true :: ds → (kbdPoll s).1 = some c) ∧
    (∀ ds, s.kbdPolls = false :: ds → (kbdPoll s).1 = none) ∧
    (∀ c cs, NextKey s c cs → s.kbdPolls = [] →
      (s.pollRun = some .forever → (kbdPoll s).1 = some c ∧ (kbdPoll s).2.pollRun = some .forever) ∧
      (∀ k, s.pollRun = some (.times (k + 1)) → (kbdPoll s).1 = some c ∧ (kbdPoll s).2.pollRun = some (.times k)) ∧
      (s.pollRun = some (.times 0) → (kbdPoll s).1 = none ∧ (kbdPoll s).2.pollRun = none))

/-- O40. spec/00_scope.md R3, spec/10_state.md R13; the fetch's intercept is the spec's decision D7 (log 11). -/
def Obligations.StepRunsTheDecodedInstruction : Prop :=
  ∀ (s : State) (i : Instr),
    (decode s.cfg (memRead s s.pc).1 = i → step s = exec i ((memRead s s.pc).2.setPC (s.pc + 1#16))) ∧
    (s.pc ≠ s.cfg.kbsrAddr → decode s.cfg (s.word s.pc) = i → step s = exec i (s.setPC (s.pc + 1#16)))

/-- O41. spec/00_scope.md R3: the sequence, the outcomes and the flag update of a step. The fetch is D7 (log 11), the wrap D13 (log 15), the wait log 7, the hang log 10. -/
def Obligations.StepOutcomesAreContinueHaltAndFatalOrTheStepDoesNotComplete : Prop :=
  ∀ s : State,
    step s = exec (decode s.cfg (memRead s s.pc).1) ((memRead s s.pc).2.setPC (s.pc + 1#16)) ∧
    (∀ t, step s = .next t → (t.signal = .halt ↔ decode s.cfg (memRead s s.pc).1 = .trapHalt)) ∧
    ((∃ u, step s = .fault (.badInstruction u)) ↔ (decode s.cfg (memRead s s.pc).1 = .res ∨ decode s.cfg (memRead s s.pc).1 = .rti)) ∧
    (∀ u, step s = .fault (.awaitsKey u) → (decode s.cfg (memRead s s.pc).1 = .trapGetc ∨ decode s.cfg (memRead s s.pc).1 = .trapIn) ∧
      NoKey (memRead s s.pc).2) ∧
    (∀ u, step s = .fault (.stringUnending u) →
      (decode s.cfg (memRead s s.pc).1 = .trapPuts ∨ decode s.cfg (memRead s s.pc).1 = .trapPutsp) ∧
      (∀ a, a ≠ s.cfg.kbsrAddr → a ≠ s.cfg.kbdrAddr → s.word a ≠ 0x0000#16) ∧ (s.mem.wf = true → s.kbdHeld ≠ none)) ∧
    (∀ r, step s ≠ .refused r) ∧
    (∀ t, step s = .next t → (∀ r, flagSource (decode s.cfg (memRead s s.pc).1) = some r → FlagsSay t (t.reg r)) ∧
      (flagSource (decode s.cfg (memRead s s.pc).1) = none → t.cond = s.cond))

/-- O42. spec/20_memory.md R44: self-modifying code needs no fence. -/
def Obligations.AStoredWordIsTheInstructionFetchedNext : Prop :=
  ∀ (s : State) (sr : Reg), s.mem.wf = true → s.pc ≠ s.cfg.kbsrAddr → s.pc + 1#16 ≠ s.cfg.kbsrAddr →
    decode s.cfg (s.word s.pc) = .st sr 0#9 →
    ∃ t, step s = .next t ∧ t.pc = s.pc + 1#16 ∧ step t = exec (decode s.cfg (s.reg sr)) (t.setPC (t.pc + 1#16))

/-- O43. spec/10_state.md R15, at every step boundary; the canonical form of memory is the model's (log 3). -/
def Obligations.InvariantIsKeptByEveryStep : Prop :=
  ∀ s t : State, Inv s → step s = .next t → Inv t

/-- O44. spec/10_state.md section 7; the values are the spec's decisions (logs 3 and 4). -/
def Obligations.InvariantHoldsAtReset : Prop :=
  Inv State.reset ∧ ∀ c : Config, c.wf = true → OneFlag c.resetCond → Inv (State.resetOf c)

/-- O45. spec/10_state.md section 7; every value is the spec's decision (logs 1 to 4). -/
def Obligations.ResetLeavesTheDefaultValues : Prop :=
  State.reset.pc = 0x3000#16 ∧ State.reset.cond = 0b010#3 ∧ (∀ r, State.reset.reg r = 0x0000#16) ∧
  (∀ a, State.reset.word a = 0x0000#16) ∧ State.reset.conOutLog = [] ∧ State.reset.cfg.kbsrAddr = 0xFE00#16 ∧
  State.reset.cfg.kbdrAddr = 0xFE02#16 ∧ opcodes.map (fun o => (opcodeValue State.reset.cfg o).toNat) = List.range 16 ∧
  services.map (fun x => (trapVector State.reset.cfg x).toNat) = [0x20, 0x21, 0x22, 0x23, 0x24, 0x25]

/-- O46. spec/10_state.md R21, R22; the parameters are fixed (log 1). -/
def Obligations.DeviceStreamsOnlyMoveForward : Prop :=
  ∀ s t : State, step s = .next t →
    (∃ bs, t.conOutLog = s.conOutLog ++ bs) ∧ (∃ used, s.kbdIn = used ++ t.kbdIn) ∧ t.kbdHeld = s.kbdHeld ∧ t.cfg = s.cfg

/-- O47. spec/10_state.md R22: the block never reads the console. -/
def Obligations.TheConsoleIsNeverRead : Prop :=
  ∀ (s t : State) (old : List Byte), step s = .next t →
    step { s with conOutLog := old ++ s.conOutLog } = .next { t with conOutLog := old ++ t.conOutLog }

/-- O48. spec/70_reset_and_hazards.md section 3, the spec's decision D22 (log 8). -/
def Obligations.HaltingIsASignalAndNoLatch : Prop :=
  ∀ (s t : State) (g : Signal), step s = .next t → step (s.setSignal g) = .next t

/-- O49. spec/70_reset_and_hazards.md R165 and R172: the run ends at the first step whose outcome is not continue (D22, log 8). -/
def Obligations.ARunEndsAtTheFirstOutcomeThatIsNotContinue : Prop :=
  ∀ (k : Nat) (s : State),
    (∀ t, freeRun k s = .running t ↔ Continues k s t) ∧
    (∀ t, freeRun k s = .halted t ↔ ∃ j u, j < k ∧ Continues j s u ∧ step u = .next t ∧ t.signal = .halt) ∧
    (∀ v, freeRun k s = .failed v ↔ ∃ j u, j < k ∧ Continues j s u ∧ step u = .fault (.badInstruction v)) ∧
    (∀ v, freeRun k s = .waiting v ↔ ∃ j u, j < k ∧ Continues j s u ∧ step u = .fault (.awaitsKey v)) ∧
    (∀ v, freeRun k s = .hanging v ↔ ∃ j u, j < k ∧ Continues j s u ∧ step u = .fault (.stringUnending v)) ∧
    (∀ r, freeRun k s ≠ .refused r)

/-- O50. spec/70_reset_and_hazards.md R163; no wrap is the spec's decision D28, the odd byte log 21. -/
def Obligations.ImageLoadPutsTheWordsFromItsOriginUp : Prop :=
  (∀ (s : State) (b : List Byte), s.mem.wf = true → 2 ≤ b.length → ∀ a : Word,
      (s.loadImage b).word a =
        (if (b.getD 0 0#8).toNat * 256 + (b.getD 1 0#8).toNat ≤ a.toNat ∧
            2 * (a.toNat - ((b.getD 0 0#8).toNat * 256 + (b.getD 1 0#8).toNat)) + 3 < b.length
         then BitVec.ofNat 16
            ((b.getD (2 * (a.toNat - ((b.getD 0 0#8).toNat * 256 + (b.getD 1 0#8).toNat)) + 2) 0#8).toNat * 256 +
             (b.getD (2 * (a.toNat - ((b.getD 0 0#8).toNat * 256 + (b.getD 1 0#8).toNat)) + 3) 0#8).toNat)
         else s.word a)) ∧
  (∀ (s : State) (b : List Byte), SameRegsBut [] s (s.loadImage b) ∧ (s.loadImage b).pc = s.pc ∧
      (s.loadImage b).cond = s.cond ∧ SameKeyboard s (s.loadImage b) ∧ (s.loadImage b).conOutLog = s.conOutLog ∧
      (b.length < 2 → s.loadImage b = s))

/-- O51. spec/10_state.md R18, one word at each address; the canonical form is the model's own (log 3). -/
def Obligations.CanonicalMemoriesThatReadAlikeAreEqual : Prop :=
  ∀ m m' : Memory, m.wf = true → m'.wf = true → (∀ a : Word, m.read a.toNat = m'.read a.toNat) → m = m'

/-- O52. spec/44_trap.md R114, R116 and spec/70_reset_and_hazards.md R172: the hang (D7, log 11; D20, log 15). Its form is log 10, the key
held down log 5. That every poll finds it ready (R21 and D24 leave each answer free) is a premise, in the fields of log 6 (DESIGN CHOICE). -/
def Obligations.PutsAndPutspHangWhereNoReadCanFindAZeroWord : Prop :=
  ∀ (s : State) (c : Byte), s.mem.wf = true → (∀ a, a ≠ s.cfg.kbsrAddr → s.word a ≠ 0x0000#16) →
    s.kbdHeld = some c → c ≠ 0#8 → (∀ x ∈ s.kbdIn, x ≠ 0#8) → (∀ d ∈ s.kbdPolls, d = true) →
    pollRunOf s = .forever →
    exec .trapPuts s = .fault (.stringUnending (s.setReg .r7 s.pc)) ∧
    exec .trapPutsp s = .fault (.stringUnending (s.setReg .r7 s.pc))
end

