-- ==== Sys2Proof/Laws/Encoding.lean ====
section
/-! SUPPORT. Reading a field back from a packed word. -/

namespace Sys2Proof

theorem getLsbD_pack (w : Word) {n : Nat} (f : BitVec n) (i : Nat) :
    (pack w f).getLsbD i = (decide (i < 16) && (if i < n then f.getLsbD i else w.getLsbD (i - n))) := by
  unfold pack
  rw [BitVec.getLsbD_or, BitVec.getLsbD_shiftLeft, BitVec.getLsbD_setWidth]
  by_cases h16 : i < 16 <;> by_cases hn : i < n <;> simp [h16, hn]
  exact fun h => absurd (BitVec.lt_of_getLsbD h) hn

/-- A field inside the last packed one. -/
theorem field_pack_low (w : Word) {n : Nat} (f : BitVec n) {lo len : Nat} (h : lo + len ≤ n) (hn : n ≤ 16) :
    field (pack w f) lo len = f.extractLsb' lo len := by
  apply BitVec.eq_of_getLsbD_eq
  intro i hi
  unfold field
  rw [BitVec.getLsbD_extractLsb', BitVec.getLsbD_extractLsb', getLsbD_pack]
  rw [if_pos (by omega), decide_eq_true (by omega : lo + i < 16), Bool.true_and]

/-- The last packed field itself. -/
theorem field_pack_last (w : Word) {n : Nat} (f : BitVec n) (hn : n ≤ 16) : field (pack w f) 0 n = f := by
  rw [field_pack_low w f (by omega) hn]
  exact BitVec.extractLsb'_eq_self

/-- A field above the last packed one. -/
theorem field_pack_high (w : Word) {n : Nat} (f : BitVec n) {lo len : Nat} (h : n ≤ lo) (h16 : lo + len ≤ 16) :
    field (pack w f) lo len = field w (lo - n) len := by
  apply BitVec.eq_of_getLsbD_eq
  intro i hi
  unfold field
  rw [BitVec.getLsbD_extractLsb', BitVec.getLsbD_extractLsb', getLsbD_pack]
  rw [if_neg (by omega), decide_eq_true (by omega : lo + i < 16), Bool.true_and, Nat.sub_add_comm h]

/-- One bit of the last packed field, and one above it. -/
theorem bit_pack_low (w : Word) {n : Nat} (f : BitVec n) {i : Nat} (h : i < n) (hn : n ≤ 16) :
    bit (pack w f) i = f.getLsbD i := by
  rw [bit, getLsbD_pack, if_pos h, decide_eq_true (by omega : i < 16), Bool.true_and]

theorem bit_pack_high (w : Word) {n : Nat} (f : BitVec n) {i : Nat} (h : n ≤ i) (hi : i < 16) :
    bit (pack w f) i = bit w (i - n) := by
  rw [bit, getLsbD_pack, if_neg (by omega), decide_eq_true hi, Bool.true_and, bit]

/-- Packing below shifts the opcode up: after fields of `k` bits in all, bits `k` and up read as the first field. -/
theorem field_foldl_pack : ∀ (fs : List (Σ n : Nat, BitVec n)) (w : Word) (len : Nat),
    (fs.map (·.1)).sum + len ≤ 16 →
    field (fs.foldl (fun w f => pack w f.2) w) (fs.map (·.1)).sum len = field w 0 len
  | [], _, _, _ => rfl
  | f :: fs, w, len, h => by
    simp only [List.map_cons, List.sum_cons, List.foldl_cons] at h ⊢
    rw [Nat.add_comm f.1]
    have key := field_foldl_pack fs (pack w f.2) (f.1 + len) (by omega)
    have step1 : field (fs.foldl (fun w f => pack w f.2) (pack w f.2)) ((fs.map (·.1)).sum + f.1) len =
        (field (fs.foldl (fun w f => pack w f.2) (pack w f.2)) (fs.map (·.1)).sum (f.1 + len)).extractLsb' f.1 len := by
      apply BitVec.eq_of_getLsbD_eq
      intro i hi
      simp [field, hi, Nat.add_assoc]
    have step2 : (field (pack w f.2) 0 (f.1 + len)).extractLsb' f.1 len = field (pack w f.2) f.1 len := by
      apply BitVec.eq_of_getLsbD_eq
      intro i hi
      simp [field, hi]
    rw [step1, key, step2, field_pack_high w f.2 (Nat.le_refl _) (by omega), Nat.sub_self]

/-- The opcode of a word laid out with the opcode first and twelve bits after it. -/
theorem opcodeField_layout (o : BitVec 4) (fs : List (Σ n : Nat, BitVec n)) (h : (fs.map (·.1)).sum = 12) :
    opcodeField (layout (⟨4, o⟩ :: fs)) = o := by
  unfold opcodeField layout
  rw [List.foldl_cons, ← h, field_foldl_pack fs _ 4 (by omega)]
  exact field_pack_last _ o (show 4 ≤ 16 by decide)

/-- Words that agree under a mask agree on every bit and every field the mask keeps. -/
theorem bit_eq_of_mask {w w' M : Word} (h : w' &&& M = w &&& M) {i : Nat} (hi : M.getLsbD i = true) : bit w' i = bit w i := by
  have := congrArg (fun x => x.getLsbD i) h
  simpa [bit, BitVec.getLsbD_and, hi] using this

theorem field_eq_of_mask {w w' M : Word} (h : w' &&& M = w &&& M) {lo len : Nat}
    (hi : ∀ i, i < len → M.getLsbD (lo + i) = true) : field w' lo len = field w lo len := by
  apply BitVec.eq_of_getLsbD_eq
  intro i hl
  have := bit_eq_of_mask h (hi i hl)
  unfold bit at this
  simp only [field, BitVec.getLsbD_extractLsb', this]

/-- Masking a packed word masks its fields. -/
theorem pack_and (w w' : Word) {n : Nat} (f f' : BitVec n) : pack w f &&& pack w' f' = pack (w &&& w') (f &&& f') := by
  apply BitVec.eq_of_getLsbD_eq
  intro i hi
  simp only [BitVec.getLsbD_and, getLsbD_pack, decide_eq_true hi, Bool.true_and]
  split <;> rfl

/-- A word is its low field packed below the rest. -/
theorem pack_field (w : Word) (n : Nat) : pack (w >>> n) (field w 0 n) = w := by
  apply BitVec.eq_of_getLsbD_eq
  intro i hi
  rw [getLsbD_pack, decide_eq_true hi, Bool.true_and]
  split
  · next hn => simp [field, hn]
  · next hn => rw [BitVec.getLsbD_ushiftRight, Nat.add_sub_cancel' (Nat.le_of_not_lt hn)]

end Sys2Proof
end

