-- ==== Sys2Proof/Laws/State.lean ====
section
/-! SUPPORT. What each state update does to each field, and what it leaves, so that no proof unfolds a record update. -/

namespace Sys2Proof.Machine

variable (s : State)

/-! ### setReg -/

@[simp] theorem setReg_regs (r : Reg) (v : Word) : (s.setReg r v).regs = s.regs.set r v := rfl
@[simp] theorem setReg_pc (r : Reg) (v : Word) : (s.setReg r v).pc = s.pc := rfl
@[simp] theorem setReg_cond (r : Reg) (v : Word) : (s.setReg r v).cond = s.cond := rfl
@[simp] theorem setReg_mem (r : Reg) (v : Word) : (s.setReg r v).mem = s.mem := rfl
@[simp] theorem setReg_kbdIn (r : Reg) (v : Word) : (s.setReg r v).kbdIn = s.kbdIn := rfl
@[simp] theorem setReg_kbdHeld (r : Reg) (v : Word) : (s.setReg r v).kbdHeld = s.kbdHeld := rfl
@[simp] theorem setReg_kbdPolls (r : Reg) (v : Word) : (s.setReg r v).kbdPolls = s.kbdPolls := rfl
@[simp] theorem setReg_pollRun (r : Reg) (v : Word) : (s.setReg r v).pollRun = s.pollRun := rfl
@[simp] theorem setReg_pollCount (r : Reg) (v : Word) : (s.setReg r v).pollCount = s.pollCount := rfl
@[simp] theorem setReg_conOutLog (r : Reg) (v : Word) : (s.setReg r v).conOutLog = s.conOutLog := rfl
@[simp] theorem setReg_signal (r : Reg) (v : Word) : (s.setReg r v).signal = s.signal := rfl
@[simp] theorem setReg_cfg (r : Reg) (v : Word) : (s.setReg r v).cfg = s.cfg := rfl
@[simp] theorem setReg_word (r : Reg) (v : Word) (x : Word) : (s.setReg r v).word x = s.word x := rfl

/-! ### setPC -/

@[simp] theorem setPC_regs (v : Word) : (s.setPC v).regs = s.regs := rfl
@[simp] theorem setPC_pc (v : Word) : (s.setPC v).pc = v := rfl
@[simp] theorem setPC_cond (v : Word) : (s.setPC v).cond = s.cond := rfl
@[simp] theorem setPC_mem (v : Word) : (s.setPC v).mem = s.mem := rfl
@[simp] theorem setPC_kbdIn (v : Word) : (s.setPC v).kbdIn = s.kbdIn := rfl
@[simp] theorem setPC_kbdHeld (v : Word) : (s.setPC v).kbdHeld = s.kbdHeld := rfl
@[simp] theorem setPC_kbdPolls (v : Word) : (s.setPC v).kbdPolls = s.kbdPolls := rfl
@[simp] theorem setPC_pollRun (v : Word) : (s.setPC v).pollRun = s.pollRun := rfl
@[simp] theorem setPC_pollCount (v : Word) : (s.setPC v).pollCount = s.pollCount := rfl
@[simp] theorem setPC_conOutLog (v : Word) : (s.setPC v).conOutLog = s.conOutLog := rfl
@[simp] theorem setPC_signal (v : Word) : (s.setPC v).signal = s.signal := rfl
@[simp] theorem setPC_cfg (v : Word) : (s.setPC v).cfg = s.cfg := rfl
@[simp] theorem setPC_reg (v : Word) (q : Reg) : (s.setPC v).reg q = s.reg q := rfl
@[simp] theorem setPC_word (v : Word) (x : Word) : (s.setPC v).word x = s.word x := rfl

/-! ### setCond -/

@[simp] theorem setCond_regs (c : BitVec 3) : (s.setCond c).regs = s.regs := rfl
@[simp] theorem setCond_pc (c : BitVec 3) : (s.setCond c).pc = s.pc := rfl
@[simp] theorem setCond_cond (c : BitVec 3) : (s.setCond c).cond = c := rfl
@[simp] theorem setCond_mem (c : BitVec 3) : (s.setCond c).mem = s.mem := rfl
@[simp] theorem setCond_kbdIn (c : BitVec 3) : (s.setCond c).kbdIn = s.kbdIn := rfl
@[simp] theorem setCond_kbdHeld (c : BitVec 3) : (s.setCond c).kbdHeld = s.kbdHeld := rfl
@[simp] theorem setCond_kbdPolls (c : BitVec 3) : (s.setCond c).kbdPolls = s.kbdPolls := rfl
@[simp] theorem setCond_pollRun (c : BitVec 3) : (s.setCond c).pollRun = s.pollRun := rfl
@[simp] theorem setCond_pollCount (c : BitVec 3) : (s.setCond c).pollCount = s.pollCount := rfl
@[simp] theorem setCond_conOutLog (c : BitVec 3) : (s.setCond c).conOutLog = s.conOutLog := rfl
@[simp] theorem setCond_signal (c : BitVec 3) : (s.setCond c).signal = s.signal := rfl
@[simp] theorem setCond_cfg (c : BitVec 3) : (s.setCond c).cfg = s.cfg := rfl
@[simp] theorem setCond_reg (c : BitVec 3) (q : Reg) : (s.setCond c).reg q = s.reg q := rfl
@[simp] theorem setCond_word (c : BitVec 3) (x : Word) : (s.setCond c).word x = s.word x := rfl

/-! ### setSignal -/

@[simp] theorem setSignal_regs (g : Signal) : (s.setSignal g).regs = s.regs := rfl
@[simp] theorem setSignal_pc (g : Signal) : (s.setSignal g).pc = s.pc := rfl
@[simp] theorem setSignal_cond (g : Signal) : (s.setSignal g).cond = s.cond := rfl
@[simp] theorem setSignal_mem (g : Signal) : (s.setSignal g).mem = s.mem := rfl
@[simp] theorem setSignal_kbdIn (g : Signal) : (s.setSignal g).kbdIn = s.kbdIn := rfl
@[simp] theorem setSignal_kbdHeld (g : Signal) : (s.setSignal g).kbdHeld = s.kbdHeld := rfl
@[simp] theorem setSignal_kbdPolls (g : Signal) : (s.setSignal g).kbdPolls = s.kbdPolls := rfl
@[simp] theorem setSignal_pollRun (g : Signal) : (s.setSignal g).pollRun = s.pollRun := rfl
@[simp] theorem setSignal_pollCount (g : Signal) : (s.setSignal g).pollCount = s.pollCount := rfl
@[simp] theorem setSignal_conOutLog (g : Signal) : (s.setSignal g).conOutLog = s.conOutLog := rfl
@[simp] theorem setSignal_signal (g : Signal) : (s.setSignal g).signal = g := rfl
@[simp] theorem setSignal_cfg (g : Signal) : (s.setSignal g).cfg = s.cfg := rfl
@[simp] theorem setSignal_reg (g : Signal) (q : Reg) : (s.setSignal g).reg q = s.reg q := rfl
@[simp] theorem setSignal_word (g : Signal) (x : Word) : (s.setSignal g).word x = s.word x := rfl

/-! ### memWrite -/

@[simp] theorem memWrite_regs (a v : Word) : (memWrite s a v).regs = s.regs := rfl
@[simp] theorem memWrite_pc (a v : Word) : (memWrite s a v).pc = s.pc := rfl
@[simp] theorem memWrite_cond (a v : Word) : (memWrite s a v).cond = s.cond := rfl
@[simp] theorem memWrite_mem (a v : Word) : (memWrite s a v).mem = s.mem.write a.toNat v := rfl
@[simp] theorem memWrite_kbdIn (a v : Word) : (memWrite s a v).kbdIn = s.kbdIn := rfl
@[simp] theorem memWrite_kbdHeld (a v : Word) : (memWrite s a v).kbdHeld = s.kbdHeld := rfl
@[simp] theorem memWrite_kbdPolls (a v : Word) : (memWrite s a v).kbdPolls = s.kbdPolls := rfl
@[simp] theorem memWrite_pollRun (a v : Word) : (memWrite s a v).pollRun = s.pollRun := rfl
@[simp] theorem memWrite_pollCount (a v : Word) : (memWrite s a v).pollCount = s.pollCount := rfl
@[simp] theorem memWrite_conOutLog (a v : Word) : (memWrite s a v).conOutLog = s.conOutLog := rfl
@[simp] theorem memWrite_signal (a v : Word) : (memWrite s a v).signal = s.signal := rfl
@[simp] theorem memWrite_cfg (a v : Word) : (memWrite s a v).cfg = s.cfg := rfl
@[simp] theorem memWrite_reg (a v : Word) (q : Reg) : (memWrite s a v).reg q = s.reg q := rfl

/-! ### conOut -/

@[simp] theorem conOut_regs (bs : List Byte) : (conOut s bs).regs = s.regs := rfl
@[simp] theorem conOut_pc (bs : List Byte) : (conOut s bs).pc = s.pc := rfl
@[simp] theorem conOut_cond (bs : List Byte) : (conOut s bs).cond = s.cond := rfl
@[simp] theorem conOut_mem (bs : List Byte) : (conOut s bs).mem = s.mem := rfl
@[simp] theorem conOut_kbdIn (bs : List Byte) : (conOut s bs).kbdIn = s.kbdIn := rfl
@[simp] theorem conOut_kbdHeld (bs : List Byte) : (conOut s bs).kbdHeld = s.kbdHeld := rfl
@[simp] theorem conOut_kbdPolls (bs : List Byte) : (conOut s bs).kbdPolls = s.kbdPolls := rfl
@[simp] theorem conOut_pollRun (bs : List Byte) : (conOut s bs).pollRun = s.pollRun := rfl
@[simp] theorem conOut_pollCount (bs : List Byte) : (conOut s bs).pollCount = s.pollCount := rfl
@[simp] theorem conOut_conOutLog (bs : List Byte) : (conOut s bs).conOutLog = s.conOutLog ++ bs := rfl
@[simp] theorem conOut_signal (bs : List Byte) : (conOut s bs).signal = s.signal := rfl
@[simp] theorem conOut_cfg (bs : List Byte) : (conOut s bs).cfg = s.cfg := rfl
@[simp] theorem conOut_reg (bs : List Byte) (q : Reg) : (conOut s bs).reg q = s.reg q := rfl
@[simp] theorem conOut_word (bs : List Byte) (x : Word) : (conOut s bs).word x = s.word x := rfl

/-! ### polled -/

@[simp] theorem polled_regs : (s.polled).regs = s.regs := rfl
@[simp] theorem polled_pc : (s.polled).pc = s.pc := rfl
@[simp] theorem polled_cond : (s.polled).cond = s.cond := rfl
@[simp] theorem polled_mem : (s.polled).mem = s.mem := rfl
@[simp] theorem polled_kbdIn : (s.polled).kbdIn = s.kbdIn := rfl
@[simp] theorem polled_kbdHeld : (s.polled).kbdHeld = s.kbdHeld := rfl
@[simp] theorem polled_kbdPolls : (s.polled).kbdPolls = s.kbdPolls.tail := rfl
@[simp] theorem polled_pollRun : (s.polled).pollRun = nextRun s := rfl
@[simp] theorem polled_pollCount : (s.polled).pollCount = nextCount s := rfl
@[simp] theorem polled_conOutLog : (s.polled).conOutLog = s.conOutLog := rfl
@[simp] theorem polled_signal : (s.polled).signal = s.signal := rfl
@[simp] theorem polled_cfg : (s.polled).cfg = s.cfg := rfl
@[simp] theorem polled_reg (q : Reg) : (s.polled).reg q = s.reg q := rfl
@[simp] theorem polled_word (x : Word) : (s.polled).word x = s.word x := rfl

/-! ### setKbdIn -/

@[simp] theorem setKbdIn_regs (cs : List Byte) : (s.setKbdIn cs).regs = s.regs := rfl
@[simp] theorem setKbdIn_pc (cs : List Byte) : (s.setKbdIn cs).pc = s.pc := rfl
@[simp] theorem setKbdIn_cond (cs : List Byte) : (s.setKbdIn cs).cond = s.cond := rfl
@[simp] theorem setKbdIn_mem (cs : List Byte) : (s.setKbdIn cs).mem = s.mem := rfl
@[simp] theorem setKbdIn_kbdIn (cs : List Byte) : (s.setKbdIn cs).kbdIn = cs := rfl
@[simp] theorem setKbdIn_kbdHeld (cs : List Byte) : (s.setKbdIn cs).kbdHeld = s.kbdHeld := rfl
@[simp] theorem setKbdIn_kbdPolls (cs : List Byte) : (s.setKbdIn cs).kbdPolls = s.kbdPolls := rfl
@[simp] theorem setKbdIn_pollRun (cs : List Byte) : (s.setKbdIn cs).pollRun = s.pollRun := rfl
@[simp] theorem setKbdIn_pollCount (cs : List Byte) : (s.setKbdIn cs).pollCount = s.pollCount := rfl
@[simp] theorem setKbdIn_conOutLog (cs : List Byte) : (s.setKbdIn cs).conOutLog = s.conOutLog := rfl
@[simp] theorem setKbdIn_signal (cs : List Byte) : (s.setKbdIn cs).signal = s.signal := rfl
@[simp] theorem setKbdIn_cfg (cs : List Byte) : (s.setKbdIn cs).cfg = s.cfg := rfl
@[simp] theorem setKbdIn_reg (cs : List Byte) (q : Reg) : (s.setKbdIn cs).reg q = s.reg q := rfl
@[simp] theorem setKbdIn_word (cs : List Byte) (x : Word) : (s.setKbdIn cs).word x = s.word x := rfl

/-! ### defineReg: a register and the flags -/

@[simp] theorem defineReg_regs (dr : Reg) (v : Word) : (defineReg s dr v).regs = s.regs.set dr v := rfl
@[simp] theorem defineReg_cond (dr : Reg) (v : Word) : (defineReg s dr v).cond = condOf v := rfl
@[simp] theorem defineReg_pc (dr : Reg) (v : Word) : (defineReg s dr v).pc = s.pc := rfl
@[simp] theorem defineReg_mem (dr : Reg) (v : Word) : (defineReg s dr v).mem = s.mem := rfl
@[simp] theorem defineReg_kbdIn (dr : Reg) (v : Word) : (defineReg s dr v).kbdIn = s.kbdIn := rfl
@[simp] theorem defineReg_kbdHeld (dr : Reg) (v : Word) : (defineReg s dr v).kbdHeld = s.kbdHeld := rfl
@[simp] theorem defineReg_kbdPolls (dr : Reg) (v : Word) : (defineReg s dr v).kbdPolls = s.kbdPolls := rfl
@[simp] theorem defineReg_pollRun (dr : Reg) (v : Word) : (defineReg s dr v).pollRun = s.pollRun := rfl
@[simp] theorem defineReg_pollCount (dr : Reg) (v : Word) : (defineReg s dr v).pollCount = s.pollCount := rfl
@[simp] theorem defineReg_conOutLog (dr : Reg) (v : Word) : (defineReg s dr v).conOutLog = s.conOutLog := rfl
@[simp] theorem defineReg_signal (dr : Reg) (v : Word) : (defineReg s dr v).signal = s.signal := rfl
@[simp] theorem defineReg_cfg (dr : Reg) (v : Word) : (defineReg s dr v).cfg = s.cfg := rfl
@[simp] theorem defineReg_word (dr : Reg) (v x : Word) : (defineReg s dr v).word x = s.word x := rfl

/-! ### trapEntry: R7 and nothing else -/

@[simp] theorem trapEntry_regs : (trapEntry s).regs = s.regs.set .r7 s.pc := rfl
@[simp] theorem trapEntry_pc : (trapEntry s).pc = s.pc := rfl
@[simp] theorem trapEntry_cond : (trapEntry s).cond = s.cond := rfl
@[simp] theorem trapEntry_mem : (trapEntry s).mem = s.mem := rfl
@[simp] theorem trapEntry_kbdIn : (trapEntry s).kbdIn = s.kbdIn := rfl
@[simp] theorem trapEntry_kbdHeld : (trapEntry s).kbdHeld = s.kbdHeld := rfl
@[simp] theorem trapEntry_kbdPolls : (trapEntry s).kbdPolls = s.kbdPolls := rfl
@[simp] theorem trapEntry_pollRun : (trapEntry s).pollRun = s.pollRun := rfl
@[simp] theorem trapEntry_pollCount : (trapEntry s).pollCount = s.pollCount := rfl
@[simp] theorem trapEntry_conOutLog : (trapEntry s).conOutLog = s.conOutLog := rfl
@[simp] theorem trapEntry_signal : (trapEntry s).signal = s.signal := rfl
@[simp] theorem trapEntry_cfg : (trapEntry s).cfg = s.cfg := rfl
@[simp] theorem trapEntry_word (x : Word) : (trapEntry s).word x = s.word x := rfl

/-! ### Addresses read only PC and the registers -/

@[simp] theorem pcRelative_setReg {n : Nat} (r : Reg) (v : Word) (off : BitVec n) :
    pcRelative (s.setReg r v) off = pcRelative s off := rfl

end Sys2Proof.Machine
end

