-- ==== Sys2Proof/Laws/Flags.lean ====
section
/-! SUPPORT. The flag computation and the branch test. -/

namespace Sys2Proof.Machine

theorem condOf_zero : condOf 0x0000#16 = condZ := rfl

theorem condOf_negative {v : Word} (h : v.getLsbD 15 = true) : condOf v = condN := by
  rw [condOf, if_neg, if_pos h]
  rintro rfl
  exact absurd h (by decide)

theorem condOf_positive {v : Word} (h0 : v ≠ 0x0000#16) (h : v.getLsbD 15 = false) : condOf v = condP := by
  rw [condOf, if_neg h0, if_neg]
  rw [h]
  decide

/-- The flag computation leaves one of the three values. -/
theorem condOf_cases (v : Word) : condOf v = condN ∨ condOf v = condZ ∨ condOf v = condP := by
  unfold condOf
  split
  · exact .inr (.inl rfl)
  · split
    · exact .inl rfl
    · exact .inr (.inr rfl)

/-- The three bits of the flag computation are the sign of the value in two's complement. -/
theorem condOf_sign (v : Word) :
    ((condOf v).getLsbD 2 = true ↔ v.toInt < 0) ∧ ((condOf v).getLsbD 1 = true ↔ v.toInt = 0) ∧
      ((condOf v).getLsbD 0 = true ↔ 0 < v.toInt) := by
  have hm : v.getLsbD 15 = decide (v.toInt < 0) := by
    rw [← BitVec.msb_eq_toInt, BitVec.msb_eq_getLsbD_last]
  have hz : v = 0#16 ↔ v.toInt = 0 :=
    ⟨fun h => by rw [h]; rfl, fun h => BitVec.eq_of_toInt_eq (by rw [h]; rfl)⟩
  unfold condOf
  rw [hm]
  by_cases h0 : v = 0#16
  · rw [if_pos h0, hz.1 h0]
    decide
  · have h0' : v.toInt ≠ 0 := fun h => h0 (hz.2 h)
    rw [if_neg h0]
    by_cases hn : v.toInt < 0
    · rw [if_pos (by simpa using hn)]
      exact ⟨iff_of_true rfl hn, iff_of_false (by decide) h0', iff_of_false (by decide) (by omega)⟩
    · rw [if_neg (by simpa using hn)]
      exact ⟨iff_of_false (by decide) hn, iff_of_false (by decide) h0', iff_of_true rfl (by omega)⟩

/-- The branch test, flag by flag. -/
theorem branchTaken_iff (n z p : Bool) (c : BitVec 3) :
    branchTaken n z p c = (n && c.getLsbD 2 || z && c.getLsbD 1 || p && c.getLsbD 0) := by
  revert n z p c
  decide

end Sys2Proof.Machine
end

