-- ==== Sys2Proof/Laws/Memory.lean ====
section
/-! SUPPORT. Memory: reading after a write, and that every operation keeps the canonical form (log 3). -/

namespace Sys2Proof

@[simp] theorem Memory.read_nil (a : Nat) : Memory.read [] a = Machine.unlistedWord := rfl

theorem Memory.read_cons (k : Nat) (v : Word) (m : Memory) (a : Nat) :
    Memory.read ((k, v) :: m) a = if k = a then v else Memory.read m a := rfl

/-- A canonical list from `lo` up says nothing of the addresses below `lo`. -/
theorem Memory.read_below : ∀ {lo : Nat} {m : Memory}, Memory.wfFrom lo m = true →
    ∀ {a : Nat}, a < lo → Memory.read m a = Machine.unlistedWord
  | _, [], _, _, _ => rfl
  | lo, (k, v) :: m, h, a, ha => by
    simp only [Memory.wfFrom, Bool.and_eq_true, decide_eq_true_eq] at h
    rw [Memory.read_cons, if_neg (by omega)]
    exact Memory.read_below h.2 (by omega)

theorem Memory.wfFrom_mono : ∀ {lo lo' : Nat} {m : Memory}, lo' ≤ lo → Memory.wfFrom lo m = true → Memory.wfFrom lo' m = true
  | _, _, [], _, _ => rfl
  | lo, lo', (k, v) :: m, hle, h => by
    simp only [Memory.wfFrom, Bool.and_eq_true, decide_eq_true_eq] at h ⊢
    exact ⟨⟨⟨by omega, h.1.1.2⟩, h.1.2⟩, h.2⟩

theorem Memory.read_cons' {k : Nat} {m : Memory} (v : Word) (h : Memory.wfFrom (k + 1) m = true) (a : Nat) :
    Memory.read (Memory.cons k v m) a = if k = a then v else Memory.read m a := by
  unfold Memory.cons
  split
  · next hv =>
    split
    · next hk => rw [hv, Memory.read_below h (by omega)]
    · rfl
  · rfl

theorem Memory.wfFrom_cons {lo k : Nat} {m : Memory} (v : Word) (hlo : lo ≤ k) (hk : k < 65536)
    (h : Memory.wfFrom (k + 1) m = true) : Memory.wfFrom lo (Memory.cons k v m) = true := by
  unfold Memory.cons
  split
  · exact Memory.wfFrom_mono (by omega) h
  · next hv => simp [Memory.wfFrom, hlo, hk, hv, h]

/-- Everything a store does to a canonical list: the form is kept, the address reads as stored, the others as before. -/
theorem Memory.write_spec : ∀ {lo : Nat} {m : Memory} {a : Nat} (v : Word), Memory.wfFrom lo m = true → lo ≤ a → a < 65536 →
    Memory.wfFrom lo (m.write a v) = true ∧ ∀ b, (m.write a v).read b = if a = b then v else m.read b
  | lo, [], a, v, _, hlo, ha =>
    ⟨Memory.wfFrom_cons v hlo ha rfl, fun b => Memory.read_cons' v rfl b⟩
  | lo, (k, w) :: m, a, v, h, hlo, ha => by
    have h' := h
    simp only [Memory.wfFrom, Bool.and_eq_true, decide_eq_true_eq] at h'
    obtain ⟨⟨⟨hk, hk'⟩, hw⟩, hm⟩ := h'
    unfold Memory.write
    split
    · next hak =>
      have hrest : Memory.wfFrom (a + 1) ((k, w) :: m) = true := by
        simp [Memory.wfFrom, hk', hw, hm]; omega
      exact ⟨Memory.wfFrom_cons v hlo ha hrest, fun b => Memory.read_cons' v hrest b⟩
    · split
      · next hak =>
        subst hak
        refine ⟨Memory.wfFrom_cons v hlo ha hm, fun b => ?_⟩
        rw [Memory.read_cons' v hm b, Memory.read_cons]
        split <;> rfl
      · next h1 h2 =>
        have ih := Memory.write_spec (lo := k + 1) (a := a) v hm (by omega) ha
        refine ⟨by simp [Memory.wfFrom, hk, hk', hw, ih.1], fun b => ?_⟩
        rw [Memory.read_cons, ih.2 b, Memory.read_cons]
        split
        · next hb => rw [if_neg (by omega)]
        · rfl

theorem Memory.wf_write {m : Memory} {a : Nat} (v : Word) (h : m.wf = true) (ha : a < 65536) : (m.write a v).wf = true :=
  (Memory.write_spec v h (Nat.zero_le a) ha).1

theorem Memory.read_cons_mem (k : Nat) (v : Word) (m : Memory) (a : Nat) (h : k ≠ a) :
    Memory.read (Memory.cons k v m) a = Memory.read m a := by
  unfold Memory.cons
  split
  · rfl
  · rw [Memory.read_cons, if_neg h]

/-- A store leaves every other address as it was, whatever the list's form. -/
theorem Memory.read_write_other : ∀ (m : Memory) {a b : Nat} (v : Word), a ≠ b → (m.write a v).read b = m.read b
  | [], _, _, v, h => Memory.read_cons_mem _ v [] _ h
  | (k, w) :: m, a, b, v, h => by
    unfold Memory.write
    split
    · exact Memory.read_cons_mem _ v _ _ h
    · split
      · next hk => rw [Memory.read_cons_mem _ v m _ h, Memory.read_cons, if_neg (by omega)]
      · rw [Memory.read_cons, Memory.read_cons, Memory.read_write_other m v h]

/-- A store reads back where memory is canonical. -/
theorem Memory.read_write_same {m : Memory} {a : Nat} (v : Word) (h : m.wf = true) (ha : a < 65536) :
    (m.write a v).read a = v := by
  rw [(Memory.write_spec v h (Nat.zero_le a) ha).2 a, if_pos rfl]

namespace Machine

variable (s : State)

/-- Reading the word just stored. -/
theorem word_memWrite_same (a v : Word) (h : s.mem.wf = true) : (memWrite s a v).word a = v :=
  Memory.read_write_same v h a.isLt

/-- A store leaves every other word. -/
theorem word_memWrite_other {a b : Word} (v : Word) (h : b ≠ a) : (memWrite s a v).word b = s.word b :=
  Memory.read_write_other _ _ (fun e => h (BitVec.eq_of_toNat_eq e).symm)

/-- A store keeps the canonical form. -/
theorem memWrite_wf (a v : Word) (h : s.mem.wf = true) : (memWrite s a v).mem.wf = true :=
  Memory.wf_write v h a.isLt

theorem reset_mem_wf : State.reset.mem.wf = true := rfl

end Machine

end Sys2Proof
end

