-- ==== Sys2Proof/Laws/Regs.lean ====
section
/-! SUPPORT. Reading a register after a write (spec/10_state.md R10), and the selector's two directions. -/

namespace Sys2Proof

@[simp] theorem Regs.get_set_same (g : Regs) (r : Reg) (v : Word) : (g.set r v).get r = v := by
  cases r <;> rfl

theorem Regs.get_set_other (g : Regs) {r q : Reg} (v : Word) (h : q ≠ r) : (g.set r v).get q = g.get q := by
  cases r <;> cases q <;> first | rfl | exact absurd rfl h

@[simp] theorem Regs.set_set (g : Regs) (r : Reg) (v w : Word) : (g.set r v).set r w = g.set r w := by
  cases r <;> rfl

/-- Register files that read alike are equal. -/
theorem Regs.ext_get {g h : Regs} (H : ∀ r, g.get r = h.get r) : g = h := by
  cases g
  cases h
  have h0 := H .r0
  have h1 := H .r1
  have h2 := H .r2
  have h3 := H .r3
  have h4 := H .r4
  have h5 := H .r5
  have h6 := H .r6
  have h7 := H .r7
  simp only [Regs.get] at h0 h1 h2 h3 h4 h5 h6 h7
  simp only [h0, h1, h2, h3, h4, h5, h6, h7]

@[simp] theorem Reg.ofBits_bits (r : Reg) : Reg.ofBits r.bits = r := by cases r <;> rfl

@[simp] theorem Reg.bits_ofBits (b : BitVec 3) : (Reg.ofBits b).bits = b := by
  revert b
  decide

namespace Machine

variable (s : State)

@[simp] theorem reg_setReg_same (r : Reg) (v : Word) : (s.setReg r v).reg r = v := Regs.get_set_same _ _ _

theorem reg_setReg_other {r q : Reg} (v : Word) (h : q ≠ r) : (s.setReg r v).reg q = s.reg q :=
  Regs.get_set_other _ _ h

@[simp] theorem reg_defineReg_same (dr : Reg) (v : Word) : (defineReg s dr v).reg dr = v := Regs.get_set_same _ _ _

theorem reg_defineReg_other {dr q : Reg} (v : Word) (h : q ≠ dr) : (defineReg s dr v).reg q = s.reg q :=
  Regs.get_set_other _ _ h

@[simp] theorem reg_trapEntry_link : (trapEntry s).reg .r7 = s.pc := reg_setReg_same s .r7 s.pc

theorem reg_trapEntry_other {q : Reg} (h : q ≠ .r7) : (trapEntry s).reg q = s.reg q := reg_setReg_other s s.pc h

end Machine

end Sys2Proof
end

