-- ==== Sys2Proof/Laws/Keyboard.lean ====
section
/-! SUPPORT. The keyboard and the one read with a side effect: everything `kbdPoll`, `kbdGet`, `memRead` and `fetch` do. -/

namespace Sys2Proof.Machine

variable (s : State)

/-! `kbdGet` in its three cases: an empty keyboard, a listed character, a key held down. -/

theorem kbdGet_empty (h : s.kbdIn = []) (hh : s.kbdHeld = none) : kbdGet s = none := by simp [kbdGet, h, hh]

theorem kbdGet_char {c : Byte} {cs : List Byte} (h : s.kbdIn = c :: cs) : kbdGet s = some (c, s.setKbdIn cs) := by
  simp [kbdGet, h]

theorem kbdGet_held {c : Byte} (h : s.kbdIn = []) (hh : s.kbdHeld = some c) : kbdGet s = some (c, s.setKbdIn []) := by
  have e : s.setKbdIn [] = s := by rw [← h]; rfl
  rw [e]
  simp [kbdGet, h, hh]

/-- Everything a read of one character can do. -/
theorem kbdGet_cases :
    (s.kbdIn = [] ∧ s.kbdHeld = none ∧ kbdGet s = none) ∨
    ∃ c cs, (s.kbdIn = c :: cs ∨ s.kbdIn = [] ∧ s.kbdHeld = some c ∧ cs = []) ∧ kbdGet s = some (c, s.setKbdIn cs) := by
  cases hk : s.kbdIn with
  | cons c cs => exact .inr ⟨c, cs, .inl rfl, kbdGet_char s hk⟩
  | nil =>
    cases hh : s.kbdHeld with
    | none => exact .inl ⟨rfl, rfl, kbdGet_empty s hk hh⟩
    | some c => exact .inr ⟨c, [], .inr ⟨rfl, rfl, rfl⟩, kbdGet_held s hk hh⟩

theorem kbdPoll_ready {c : Byte} {t : State} (h : kbdGet s = some (c, t)) (hr : pollReady s = true) :
    kbdPoll s = (some c, t.polled) := by simp [kbdPoll, h, hr]

theorem kbdPoll_empty (h : s.kbdIn = []) (hh : s.kbdHeld = none) : kbdPoll s = (none, s) := by
  simp [kbdPoll, kbdGet_empty s h hh]

/-- A poll either answers nothing and consumes nothing, or answers the first character and consumes it. -/
theorem kbdPoll_cases :
    (∃ t, (t = s ∨ t = s.polled) ∧ kbdPoll s = (none, t)) ∨
    ∃ c cs, (s.kbdIn = c :: cs ∨ s.kbdIn = [] ∧ s.kbdHeld = some c ∧ cs = []) ∧
      kbdPoll s = (some c, s.polled.setKbdIn cs) := by
  rcases kbdGet_cases s with ⟨_, _, h⟩ | ⟨c, cs, hk, h⟩
  · exact .inl ⟨s, .inl rfl, by simp [kbdPoll, h]⟩
  · by_cases hr : pollReady s = true
    · exact .inr ⟨c, cs, hk, kbdPoll_ready s h hr⟩
    · exact .inl ⟨s.polled, .inr rfl, by simp [kbdPoll, h, hr]⟩

theorem kbdPoll_notReady (hr : pollReady s = false) : (kbdPoll s).1 = none := by
  unfold kbdPoll
  split
  · rfl
  · simp [hr]

theorem pollReady_given {d : Bool} {ds : List Bool} (h : s.kbdPolls = d :: ds) : pollReady s = d := by
  simp [pollReady, h]

/-- Without a listed answer the run answers, whatever the keyboard holds. -/
theorem pollReady_run (h : s.kbdPolls = []) : pollReady s = runReady (pollRunOf s) := by simp [pollReady, h]

/-- A listed answer leaves the run. -/
theorem pollRunOf_polled_given {d : Bool} {ds : List Bool} (h : s.kbdPolls = d :: ds) : pollRunOf s.polled = pollRunOf s := by
  simp [pollRunOf, nextRun, nextCount, h]

/-- Without a listed answer a run that goes on is what the next poll goes by. -/
theorem pollRunOf_polled_run (h : s.kbdPolls = []) {r : PollRun} (hr : runRest (pollRunOf s) = some r) :
    pollRunOf s.polled = r := by
  simp [pollRunOf, nextRun, h] at hr ⊢
  simp [hr]

/-- A status read changes the two keyboard words, the keyboard's stream and the poll bookkeeping, and nothing else. -/
theorem statusRead_cases :
    (∃ t, (t = s ∨ t = s.polled) ∧ statusRead s = memWrite t s.cfg.kbsrAddr 0x0000#16) ∨
    ∃ c cs, (s.kbdIn = c :: cs ∨ s.kbdIn = [] ∧ s.kbdHeld = some c ∧ cs = []) ∧
      statusRead s =
        memWrite (memWrite (s.polled.setKbdIn cs) s.cfg.kbsrAddr 0x8000#16) s.cfg.kbdrAddr (zext16 c) := by
  rcases kbdPoll_cases s with ⟨t, ht, h⟩ | ⟨c, cs, hk, h⟩
  · exact .inl ⟨t, ht, by simp [statusRead, h]⟩
  · exact .inr ⟨c, cs, hk, by simp [statusRead, h]⟩

/-- A status read that does not answer zero has found the character ready. -/
theorem statusRead_ready (hw : s.mem.wf = true) (h : (statusRead s).word s.cfg.kbsrAddr ≠ 0x0000#16) : pollReady s = true := by
  by_contra hr
  apply h
  rcases kbdPoll_cases s with ⟨t, ht, hp⟩ | ⟨c, cs, _, hp⟩
  · rw [show statusRead s = memWrite t s.cfg.kbsrAddr 0x0000#16 by simp [statusRead, hp]]
    exact word_memWrite_same t _ _ (by rcases ht with rfl | rfl <;> exact hw)
  · simpa [hp] using kbdPoll_notReady s (by simpa using hr)

/-- Reading any other address changes nothing (spec/20_memory.md R32, R35, R38). -/
theorem memRead_plain {a : Word} (h : a ≠ s.cfg.kbsrAddr) : memRead s a = (s.word a, s) := by simp [memRead, h]

theorem memRead_status : memRead s s.cfg.kbsrAddr = ((statusRead s).word s.cfg.kbsrAddr, statusRead s) := by
  simp [memRead]

/-- What a read returns is what the address holds after it (R32). -/
theorem memRead_value (a : Word) : (memRead s a).1 = (memRead s a).2.word a := by
  unfold memRead
  split
  · next h => rw [h]
  · rfl

theorem memRead_state_cases (a : Word) : (memRead s a).2 = s ∨ (a = s.cfg.kbsrAddr ∧ (memRead s a).2 = statusRead s) := by
  unfold memRead
  split
  · next h => exact .inr ⟨h, rfl⟩
  · exact .inl rfl

/-- What a property must survive to survive every read. -/
theorem memRead_preserves {P : State → Prop} (hp : P s → P (statusRead s)) (a : Word) (h : P s) : P (memRead s a).2 := by
  rcases memRead_state_cases s a with e | ⟨_, e⟩
  · rw [e]; exact h
  · rw [e]; exact hp h

@[simp] theorem statusRead_regs : (statusRead s).regs = s.regs := by
  rcases statusRead_cases s with ⟨t, rfl | rfl, h⟩ | ⟨c, cs, _, h⟩ <;> simp [h]

@[simp] theorem memRead_regs (a : Word) : (memRead s a).2.regs = s.regs := by
  rcases memRead_state_cases s a with h | ⟨_, h⟩ <;> simp [h]

@[simp] theorem statusRead_pc : (statusRead s).pc = s.pc := by
  rcases statusRead_cases s with ⟨t, rfl | rfl, h⟩ | ⟨c, cs, _, h⟩ <;> simp [h]

@[simp] theorem memRead_pc (a : Word) : (memRead s a).2.pc = s.pc := by
  rcases memRead_state_cases s a with h | ⟨_, h⟩ <;> simp [h]

@[simp] theorem statusRead_cond : (statusRead s).cond = s.cond := by
  rcases statusRead_cases s with ⟨t, rfl | rfl, h⟩ | ⟨c, cs, _, h⟩ <;> simp [h]

@[simp] theorem memRead_cond (a : Word) : (memRead s a).2.cond = s.cond := by
  rcases memRead_state_cases s a with h | ⟨_, h⟩ <;> simp [h]

@[simp] theorem statusRead_conOutLog : (statusRead s).conOutLog = s.conOutLog := by
  rcases statusRead_cases s with ⟨t, rfl | rfl, h⟩ | ⟨c, cs, _, h⟩ <;> simp [h]

@[simp] theorem memRead_conOutLog (a : Word) : (memRead s a).2.conOutLog = s.conOutLog := by
  rcases memRead_state_cases s a with h | ⟨_, h⟩ <;> simp [h]

@[simp] theorem statusRead_signal : (statusRead s).signal = s.signal := by
  rcases statusRead_cases s with ⟨t, rfl | rfl, h⟩ | ⟨c, cs, _, h⟩ <;> simp [h]

@[simp] theorem memRead_signal (a : Word) : (memRead s a).2.signal = s.signal := by
  rcases memRead_state_cases s a with h | ⟨_, h⟩ <;> simp [h]

@[simp] theorem statusRead_cfg : (statusRead s).cfg = s.cfg := by
  rcases statusRead_cases s with ⟨t, rfl | rfl, h⟩ | ⟨c, cs, _, h⟩ <;> simp [h]

@[simp] theorem memRead_cfg (a : Word) : (memRead s a).2.cfg = s.cfg := by
  rcases memRead_state_cases s a with h | ⟨_, h⟩ <;> simp [h]

@[simp] theorem statusRead_kbdHeld : (statusRead s).kbdHeld = s.kbdHeld := by
  rcases statusRead_cases s with ⟨t, rfl | rfl, h⟩ | ⟨c, cs, _, h⟩ <;> simp [h]

@[simp] theorem memRead_kbdHeld (a : Word) : (memRead s a).2.kbdHeld = s.kbdHeld := by
  rcases memRead_state_cases s a with h | ⟨_, h⟩ <;> simp [h]

@[simp] theorem statusRead_reg (r : Reg) : (statusRead s).reg r = s.reg r := by simp [State.reg]

@[simp] theorem memRead_reg (a : Word) (r : Reg) : (memRead s a).2.reg r = s.reg r := by simp [State.reg]

/-- A read never gives the keyboard a character. -/
theorem memRead_kbdIn (a : Word) : (memRead s a).2.kbdIn = s.kbdIn ∨ ∃ c, s.kbdIn = c :: (memRead s a).2.kbdIn := by
  rcases memRead_state_cases s a with h | ⟨_, h⟩
  · exact .inl (by rw [h])
  · rcases statusRead_cases s with ⟨t, rfl | rfl, e⟩ | ⟨c, cs, hk | ⟨hk, _, hc⟩, e⟩
    · exact .inl (by simp [h, e])
    · exact .inl (by simp [h, e])
    · exact .inr ⟨c, by simp [h, e, hk]⟩
    · exact .inl (by simp [h, e, hk, hc])

/-- A read changes at most the two keyboard words. -/
theorem word_memRead (a : Word) {b : Word} (h1 : b ≠ s.cfg.kbsrAddr) (h2 : b ≠ s.cfg.kbdrAddr) :
    (memRead s a).2.word b = s.word b := by
  rcases memRead_state_cases s a with h | ⟨_, h⟩
  · rw [h]
  · rw [h]
    rcases statusRead_cases s with ⟨t, rfl | rfl, e⟩ | ⟨c, cs, _, e⟩
    · rw [e, word_memWrite_other _ _ h1]
    · rw [e, word_memWrite_other _ _ h1]; rfl
    · rw [e, word_memWrite_other _ _ h2, word_memWrite_other _ _ h1]; rfl

/-- Every read keeps memory canonical. -/
theorem memRead_wf (a : Word) (h : s.mem.wf = true) : (memRead s a).2.mem.wf = true := by
  rcases memRead_state_cases s a with e | ⟨_, e⟩
  · rw [e]; exact h
  · rw [e]
    rcases statusRead_cases s with ⟨t, rfl | rfl, e'⟩ | ⟨c, cs, _, e'⟩
    · rw [e']; exact memWrite_wf _ _ _ h
    · rw [e']; exact memWrite_wf s.polled _ _ h
    · rw [e']; exact memWrite_wf _ _ _ (memWrite_wf _ _ _ h)

/-- The fetch is a read at PC and the increment (spec/10_state.md R13). -/
theorem fetch_plain (h : s.pc ≠ s.cfg.kbsrAddr) : fetch s = (s.word s.pc, s.setPC (s.pc + 1#16)) := by
  simp [fetch, memRead_plain s h]

@[simp] theorem fetch_pc : (fetch s).2.pc = s.pc + 1#16 := rfl
@[simp] theorem fetch_regs : (fetch s).2.regs = s.regs := by simp [fetch]
@[simp] theorem fetch_cond : (fetch s).2.cond = s.cond := by simp [fetch]
@[simp] theorem fetch_conOutLog : (fetch s).2.conOutLog = s.conOutLog := by simp [fetch]
@[simp] theorem fetch_signal : (fetch s).2.signal = s.signal := by simp [fetch]
@[simp] theorem fetch_kbdHeld : (fetch s).2.kbdHeld = s.kbdHeld := by simp [fetch]
@[simp] theorem fetch_cfg : (fetch s).2.cfg = s.cfg := by simp [fetch]
@[simp] theorem fetch_reg (r : Reg) : (fetch s).2.reg r = s.reg r := by simp [State.reg]

theorem fetch_wf (h : s.mem.wf = true) : (fetch s).2.mem.wf = true := memRead_wf s _ h

end Sys2Proof.Machine
end

