-- ==== Sys2Proof/Laws/Maps.lean ====
section
/-! SUPPORT. The two maps that are parameters: names and values determine each other (log 2). -/

namespace Sys2Proof

/-- Looking a value up among names with different values finds the name that has it. -/
theorem find?_of_nodup_map {α β : Type} [DecidableEq β] (f : α → β) :
    ∀ {l : List α}, (l.map f).Nodup → ∀ {x : α}, x ∈ l → l.find? (fun y => f y == f x) = some x
  | [], _, _, hx => by cases hx
  | y :: l, h, x, hx => by
    rw [List.map_cons, List.nodup_cons] at h
    rcases List.mem_cons.1 hx with rfl | hx
    · exact List.find?_cons_of_pos (beq_self_eq_true _)
    · have hne : f y ≠ f x := fun e => h.1 (e ▸ List.mem_map_of_mem hx)
      rw [List.find?_cons_of_neg (by simpa using hne)]
      exact find?_of_nodup_map f h.2 hx

/-- As many different numbers below `n` as there are such numbers are all of them. -/
theorem mem_of_nodup_of_length {l : List Nat} {n : Nat} (hd : l.Nodup) (hb : ∀ x ∈ l, x < n) (hl : l.length = n) :
    ∀ x, x < n → x ∈ l := by
  intro x hx
  have hsub : l.toFinset ⊆ Finset.range n := fun y hy => Finset.mem_range.2 (hb y (List.mem_toFinset.1 hy))
  have heq := Finset.eq_of_subset_of_card_le hsub (by rw [Finset.card_range, List.toFinset_card_of_nodup hd, hl])
  exact List.mem_toFinset.1 (heq ▸ Finset.mem_range.2 hx)

theorem mem_opcodes (o : Opcode) : o ∈ opcodes := by cases o <;> decide

theorem mem_services (x : Service) : x ∈ services := by cases x <;> decide

variable {c : Config}

theorem mapsWf_iff : c.mapsWf = true ↔ (opcodes.map (opcodeValue c)).Nodup ∧ (services.map (trapVector c)).Nodup := by
  simp [Config.mapsWf]

/-- The name of an opcode's value is that opcode. -/
theorem opcodeName_opcodeValue (h : c.mapsWf = true) (o : Opcode) : opcodeName c (opcodeValue c o) = o := by
  rw [opcodeName, find?_of_nodup_map (opcodeValue c) (mapsWf_iff.1 h).1 (mem_opcodes o), Option.getD_some]

/-- Every opcode field is the value of the name it selects. -/
theorem opcodeValue_opcodeName (h : c.mapsWf = true) (b : BitVec 4) : opcodeValue c (opcodeName c b) = b := by
  have hd : ((opcodes.map (opcodeValue c)).map BitVec.toNat).Nodup :=
    (mapsWf_iff.1 h).1.map (fun _ _ => BitVec.eq_of_toNat_eq)
  have hb : ∀ x ∈ (opcodes.map (opcodeValue c)).map BitVec.toNat, x < 16 := by
    intro x hx
    obtain ⟨v, _, rfl⟩ := List.mem_map.1 hx
    exact v.isLt
  obtain ⟨v, hv, e⟩ := List.mem_map.1 (mem_of_nodup_of_length hd hb rfl b.toNat b.isLt)
  obtain ⟨o, _, rfl⟩ := List.mem_map.1 hv
  rw [← BitVec.eq_of_toNat_eq e, opcodeName_opcodeValue h]

/-- The service of a service's vector is that service. -/
theorem serviceOf_trapVector (h : c.mapsWf = true) (x : Service) : serviceOf c (trapVector c x) = some x :=
  find?_of_nodup_map (trapVector c) (mapsWf_iff.1 h).2 (mem_services x)

/-- A vector that selects a service is that service's. -/
theorem trapVector_of_serviceOf {v : BitVec 8} {x : Service} (h : serviceOf c v = some x) : trapVector c x = v := by
  have := List.find?_some h
  simpa using this

end Sys2Proof
end

