-- ==== Sys2Proof/Laws/Operands.lean ====
section
/-! SUPPORT. Operands in the terms of plain numbers: sums with a sign-extended field, and the bytes of a word. -/

namespace Sys2Proof.Machine

/-- A sum with a sign-extended field is the sum with the field's two's-complement value, modulo 65536. -/
theorem add_sext {n : Nat} (p : Word) (f : BitVec n) : p + sext f = BitVec.ofInt 16 (p.toNat + f.toInt) := by
  unfold sext
  rw [BitVec.ofInt_add, BitVec.signExtend]
  simp

theorem pcRelative_eq {n : Nat} (s : State) (off : BitVec n) :
    pcRelative s off = BitVec.ofInt 16 (s.pc.toNat + off.toInt) := add_sext _ _

theorem basePlus_eq (s : State) (base : Reg) (off : BitVec 6) :
    basePlus s base off = BitVec.ofInt 16 ((s.reg base).toNat + off.toInt) := add_sext _ _

theorem zext16_toNat (c : Byte) : (zext16 c).toNat = c.toNat := by
  have := c.isLt
  simp [zext16]
  omega

theorem lowByte_eq (w : Word) : lowByte w = BitVec.ofNat 8 (w.toNat % 256) := by
  apply BitVec.eq_of_toNat_eq
  simp [lowByte]

theorem highByte_toNat (w : Word) : (highByte w).toNat = w.toNat / 256 := by
  have := w.isLt
  simp [highByte, Nat.shiftRight_eq_div_pow]
  omega

theorem highByte_eq (w : Word) : highByte w = BitVec.ofNat 8 (w.toNat / 256) := by
  apply BitVec.eq_of_toNat_eq
  have := w.isLt
  rw [highByte_toNat, BitVec.toNat_ofNat]
  omega

end Sys2Proof.Machine
end

