-- ==== Sys2Proof/Laws/PerInstr.lean ====
section
/-! SUPPORT. Statements about every instruction as syntax, one lemma a constructor. -/

namespace Sys2Proof.Laws.Opcode

/-- The opcode name of an instruction's row (spec/30_encoding.md R56). -/
def nameOf : Instr → Sys2Proof.Opcode
  | .br _ _ _ _ => .br
  | .addReg _ _ _ => .add
  | .addImm _ _ _ => .add
  | .ld _ _ => .ld
  | .st _ _ => .st
  | .jsr _ => .jsr
  | .jsrr _ => .jsr
  | .andReg _ _ _ => .and
  | .andImm _ _ _ => .and
  | .ldr _ _ _ => .ldr
  | .str _ _ _ => .str
  | .rti => .rti
  | .not _ _ => .not
  | .ldi _ _ => .ldi
  | .sti _ _ => .sti
  | .jmp _ => .jmp
  | .res => .res
  | .lea _ _ => .lea
  | .trapGetc => .trap
  | .trapOut => .trap
  | .trapPuts => .trap
  | .trapIn => .trap
  | .trapPutsp => .trap
  | .trapHalt => .trap
  | .trapUnlisted00 _ => .trap
  | .trapUnlisted26 _ => .trap
  | .trapUnlisted28 _ => .trap
  | .trapUnlisted30 _ => .trap
  | .trapUnlisted40 _ => .trap
  | .trapUnlisted80 _ => .trap

/-- Under every OPCODE_MAP the encoder puts the instruction's own opcode value in bits 15 to 12 (R51, R56). -/
def Statement (i : Instr) : Prop := ∀ c : Config, opcodeField (encode c i) = opcodeValue c (nameOf i)

theorem br (n z p : Bool) (off : BitVec 9) : Statement (.br n z p off) := by
  exact fun _ => opcodeField_layout _ _ rfl

theorem addReg (dr sr1 sr2 : Reg) : Statement (.addReg dr sr1 sr2) := by
  exact fun _ => opcodeField_layout _ _ rfl

theorem addImm (dr sr1 : Reg) (imm : BitVec 5) : Statement (.addImm dr sr1 imm) := by
  exact fun _ => opcodeField_layout _ _ rfl

theorem ld (dr : Reg) (off : BitVec 9) : Statement (.ld dr off) := by
  exact fun _ => opcodeField_layout _ _ rfl

theorem st (sr : Reg) (off : BitVec 9) : Statement (.st sr off) := by
  exact fun _ => opcodeField_layout _ _ rfl

theorem jsr (off : BitVec 11) : Statement (.jsr off) := by
  exact fun _ => opcodeField_layout _ _ rfl

theorem jsrr (base : Reg) : Statement (.jsrr base) := by
  exact fun _ => opcodeField_layout _ _ rfl

theorem andReg (dr sr1 sr2 : Reg) : Statement (.andReg dr sr1 sr2) := by
  exact fun _ => opcodeField_layout _ _ rfl

theorem andImm (dr sr1 : Reg) (imm : BitVec 5) : Statement (.andImm dr sr1 imm) := by
  exact fun _ => opcodeField_layout _ _ rfl

theorem ldr (dr base : Reg) (off : BitVec 6) : Statement (.ldr dr base off) := by
  exact fun _ => opcodeField_layout _ _ rfl

theorem str (sr base : Reg) (off : BitVec 6) : Statement (.str sr base off) := by
  exact fun _ => opcodeField_layout _ _ rfl

theorem rti : Statement .rti := by
  exact fun _ => opcodeField_layout _ _ rfl

theorem not (dr sr1 : Reg) : Statement (.not dr sr1) := by
  exact fun _ => opcodeField_layout _ _ rfl

theorem ldi (dr : Reg) (off : BitVec 9) : Statement (.ldi dr off) := by
  exact fun _ => opcodeField_layout _ _ rfl

theorem sti (sr : Reg) (off : BitVec 9) : Statement (.sti sr off) := by
  exact fun _ => opcodeField_layout _ _ rfl

theorem jmp (base : Reg) : Statement (.jmp base) := by
  exact fun _ => opcodeField_layout _ _ rfl

theorem res : Statement .res := by
  exact fun _ => opcodeField_layout _ _ rfl

theorem lea (dr : Reg) (off : BitVec 9) : Statement (.lea dr off) := by
  exact fun _ => opcodeField_layout _ _ rfl

theorem trapGetc : Statement .trapGetc := by
  exact fun _ => opcodeField_layout _ _ rfl

theorem trapOut : Statement .trapOut := by
  exact fun _ => opcodeField_layout _ _ rfl

theorem trapPuts : Statement .trapPuts := by
  exact fun _ => opcodeField_layout _ _ rfl

theorem trapIn : Statement .trapIn := by
  exact fun _ => opcodeField_layout _ _ rfl

theorem trapPutsp : Statement .trapPutsp := by
  exact fun _ => opcodeField_layout _ _ rfl

theorem trapHalt : Statement .trapHalt := by
  exact fun _ => opcodeField_layout _ _ rfl

theorem trapUnlisted00 (vect : BitVec 8) : Statement (.trapUnlisted00 vect) := by
  exact fun _ => opcodeField_layout _ _ rfl

theorem trapUnlisted26 (vect : BitVec 8) : Statement (.trapUnlisted26 vect) := by
  exact fun _ => opcodeField_layout _ _ rfl

theorem trapUnlisted28 (vect : BitVec 8) : Statement (.trapUnlisted28 vect) := by
  exact fun _ => opcodeField_layout _ _ rfl

theorem trapUnlisted30 (vect : BitVec 8) : Statement (.trapUnlisted30 vect) := by
  exact fun _ => opcodeField_layout _ _ rfl

theorem trapUnlisted40 (vect : BitVec 8) : Statement (.trapUnlisted40 vect) := by
  exact fun _ => opcodeField_layout _ _ rfl

theorem trapUnlisted80 (vect : BitVec 8) : Statement (.trapUnlisted80 vect) := by
  exact fun _ => opcodeField_layout _ _ rfl

end Sys2Proof.Laws.Opcode
end

