-- ==== Sys2Proof/Laws/Strings.lean ====
section
/-! SUPPORT. The ways a meaning ends: an ordinary end, the character read of GETC and IN, the string loop of PUTS and PUTSP. -/

namespace Sys2Proof.Machine

/-- An ordinary end answers its state with the signal continue, and nothing else. -/
theorem retContinue_next {s t : State} : retContinue s = .next t ↔ t = s.setSignal .cont :=
  ⟨fun h => by cases h; rfl, fun h => by rw [h]; rfl⟩

/-- HALT answers its state with the signal halt. -/
theorem retHalt_next {s t : State} : retHalt s = .next t ↔ t = s.setSignal .halt :=
  ⟨fun h => by cases h; rfl, fun h => by rw [h]; rfl⟩

theorem stringLoop_zero (chars : Word → List Byte) (a : Word) (s : State) : stringLoop chars 0 a s = none := rfl

theorem stringLoop_end (chars : Word → List Byte) (n : Nat) {a : Word} {s : State} (h : (memRead s a).1 = 0x0000#16) :
    stringLoop chars (n + 1) a s = some (memRead s a).2 := by simp [stringLoop, h]

theorem stringLoop_more (chars : Word → List Byte) (n : Nat) {a : Word} {s : State} (h : (memRead s a).1 ≠ 0x0000#16) :
    stringLoop chars (n + 1) a s =
      stringLoop chars n (a + 1#16) (conOut (memRead s a).2 (chars (memRead s a).1)) := by simp [stringLoop, h]

/-- More fuel does not change where the loop ends. -/
theorem stringLoop_mono (chars : Word → List Byte) : ∀ {n m : Nat} {a : Word} {s t : State}, n ≤ m →
    stringLoop chars n a s = some t → stringLoop chars m a s = some t
  | 0, _, _, _, _, _, h => by simp [stringLoop] at h
  | n + 1, 0, _, _, _, hm, _ => absurd hm (by omega)
  | n + 1, m + 1, a, s, t, hm, h => by
    by_cases hz : (memRead s a).1 = 0x0000#16
    · rwa [stringLoop_end chars _ hz] at h ⊢
    · rw [stringLoop_more chars _ hz] at h ⊢
      exact stringLoop_mono chars (by omega) h

/-- The first try decides nothing of its own. -/
theorem stringEnd_eq (chars : Word → List Byte) (a : Word) (s : State) :
    stringEnd chars a s = stringLoop chars (stringFuel s) a s := by
  unfold stringEnd
  split
  · next t h => exact (stringLoop_mono chars (by unfold stringFuel; omega) h).symm
  · rfl

/-- A property that every read and every output keeps holds where the loop ends. -/
theorem stringLoop_preserves {P : State → Prop} (hr : ∀ s a, P s → P (memRead s a).2) (ho : ∀ s bs, P s → P (conOut s bs))
    (chars : Word → List Byte) : ∀ (n : Nat) (a : Word) (s t : State), P s → stringLoop chars n a s = some t → P t
  | 0, _, _, _, _, h => by simp [stringLoop] at h
  | n + 1, a, s, t, hp, h => by
    by_cases hz : (memRead s a).1 = 0x0000#16
    · rw [stringLoop_end chars n hz] at h
      cases h
      exact hr s a hp
    · rw [stringLoop_more chars n hz] at h
      exact stringLoop_preserves hr ho chars n _ _ t (ho _ _ (hr s a hp)) h

/-- A string service leaves the registers, PC, COND, the signal and the parameters. -/
theorem stringLoop_frame (chars : Word → List Byte) {n : Nat} {a : Word} {s t : State} (h : stringLoop chars n a s = some t) :
    t.regs = s.regs ∧ t.pc = s.pc ∧ t.cond = s.cond ∧ t.signal = s.signal ∧ t.cfg = s.cfg :=
  stringLoop_preserves (P := fun t => t.regs = s.regs ∧ t.pc = s.pc ∧ t.cond = s.cond ∧ t.signal = s.signal ∧ t.cfg = s.cfg)
    (by simp) (by simp) chars n a s t ⟨rfl, rfl, rfl, rfl, rfl⟩ h

/-- A string service keeps memory canonical. -/
theorem stringLoop_wf (chars : Word → List Byte) {n : Nat} {a : Word} {s t : State} (hm : s.mem.wf = true)
    (h : stringLoop chars n a s = some t) : t.mem.wf = true :=
  stringLoop_preserves (P := fun t => t.mem.wf = true) (fun s a hp => memRead_wf s a hp) (fun _ _ hp => hp) chars n a s t hm h

/-! ### Where the loop ends and where it never does (R114, D20, log 10) -/

/-- One read that does not end the loop, with whatever fuel. -/
theorem stringLoop_none_of_more {chars : Word → List Byte} {a : Word} {s : State} (h : (memRead s a).1 ≠ 0x0000#16)
    (rest : ∀ n, stringLoop chars n (a + 1#16) (conOut (memRead s a).2 (chars (memRead s a).1)) = none) :
    ∀ n, stringLoop chars n a s = none
  | 0 => rfl
  | n + 1 => by rw [stringLoop_more chars n h, rest n]

/-- A zero word ends the loop if no status read can change it before the loop comes to it: it is neither keyboard word, or
it lies ahead of the status word. -/
theorem stringLoop_ends_at_zero (chars : Word → List Byte) {z : Word} : ∀ (n : Nat) (a : Word) (s : State), s.word z = 0x0000#16 →
    (z ≠ s.cfg.kbsrAddr ∧ z ≠ s.cfg.kbdrAddr ∨ (z - a).toNat < (s.cfg.kbsrAddr - a).toNat) → (z - a).toNat + 1 ≤ n →
    ∃ t, stringLoop chars n a s = some t
  | 0, a, s, _, _, hn => by omega
  | n + 1, a, s, hz, hp, hn => by
    by_cases h0 : (memRead s a).1 = 0x0000#16
    · exact ⟨_, stringLoop_end chars n h0⟩
    rw [stringLoop_more chars n h0]
    have haz : a ≠ z := by
      rintro rfl
      have hk : a ≠ s.cfg.kbsrAddr := by
        rcases hp with hp | hp
        · exact hp.1
        · rintro rfl
          simp at hp
      rw [memRead_plain s hk] at h0
      exact h0 hz
    have hstep : (z - (a + 1#16)).toNat + 1 = (z - a).toNat := by bv_omega
    refine stringLoop_ends_at_zero chars (z := z) n (a + 1#16) (conOut (memRead s a).2 (chars (memRead s a).1)) ?_ ?_ (by omega)
    · by_cases ha : a = s.cfg.kbsrAddr
      · rcases hp with hp | hp
        · exact (word_memRead s a hp.1 hp.2).trans hz
        · simp [ha] at hp
      · rw [memRead_plain s ha]
        exact hz
    · rcases hp with hp | hp
      · exact .inl (by simpa using hp)
      · right
        have ha : a ≠ s.cfg.kbsrAddr := by
          rintro rfl
          simp at hp
        have hk : (s.cfg.kbsrAddr - (a + 1#16)).toNat + 1 = (s.cfg.kbsrAddr - a).toNat := by
          generalize s.cfg.kbsrAddr = k at *
          bv_omega
        simp only [conOut_cfg, memRead_cfg]
        omega

/-- A state in which no read of a string can find a zero word: none is stored outside the status word, every character to
come is not zero, and every poll to come finds one ready. -/
structure NoZeroAhead (s : State) : Prop where
  wf : s.mem.wf = true
  words : ∀ b, b ≠ s.cfg.kbsrAddr → s.word b ≠ 0x0000#16
  held : ∃ c, s.kbdHeld = some c ∧ c ≠ 0#8
  listed : ∀ c ∈ s.kbdIn, c ≠ 0#8
  ready : ∀ d ∈ s.kbdPolls, d = true
  run : pollRunOf s = .forever

theorem zext16_ne_zero {c : Byte} (h : c ≠ 0#8) : zext16 c ≠ 0x0000#16 := by
  intro e
  apply h
  unfold zext16 at e
  bv_omega

theorem NoZeroAhead.pollReady {s : State} (h : NoZeroAhead s) : pollReady s = true := by
  cases hp : s.kbdPolls with
  | nil => rw [pollReady_run s hp, h.run]; rfl
  | cons d ds => rw [pollReady_given s hp, h.ready d (by simp [hp])]

/-- The polls to come stay ready. -/
theorem NoZeroAhead.run_polled {s : State} (h : NoZeroAhead s) : pollRunOf s.polled = .forever := by
  cases hp : s.kbdPolls with
  | nil => exact pollRunOf_polled_run s hp (by rw [h.run]; rfl)
  | cons d ds => rw [pollRunOf_polled_given s hp, h.run]

/-- The status read there finds a character that is not zero. -/
theorem NoZeroAhead.statusRead_eq {s : State} (h : NoZeroAhead s) : ∃ c cs, c ≠ 0#8 ∧ (∀ x ∈ cs, x ≠ 0#8) ∧
    statusRead s = memWrite (memWrite (s.polled.setKbdIn cs) s.cfg.kbsrAddr 0x8000#16) s.cfg.kbdrAddr (zext16 c) := by
  obtain ⟨c, hc, hc0⟩ := h.held
  have hx := h.listed
  cases hk : s.kbdIn with
  | nil =>
    refine ⟨c, [], hc0, by simp, ?_⟩
    simp [statusRead, kbdPoll_ready s (kbdGet_held s hk hc) h.pollReady]
    rfl
  | cons x xs =>
    rw [hk] at hx
    refine ⟨x, xs, hx x (by simp), fun y hy => hx y (by simp [hy]), ?_⟩
    simp [statusRead, kbdPoll_ready s (kbdGet_char s hk) h.pollReady]
    rfl

/-- No read there gives zero, and none leaves such a state. -/
theorem NoZeroAhead.memRead {s : State} (h : NoZeroAhead s) (a : Word) :
    (memRead s a).1 ≠ 0x0000#16 ∧ NoZeroAhead (memRead s a).2 := by
  by_cases ha : a = s.cfg.kbsrAddr
  · subst ha
    obtain ⟨c, cs, hc, hcs, e⟩ := h.statusRead_eq
    have hw : (memWrite (s.polled.setKbdIn cs) s.cfg.kbsrAddr 0x8000#16).mem.wf = true := memWrite_wf _ _ _ h.wf
    have hword : ∀ b, (b = s.cfg.kbsrAddr ∨ s.word b ≠ 0x0000#16) → (statusRead s).word b ≠ 0x0000#16 := by
      intro b hb
      rw [e]
      by_cases hd : b = s.cfg.kbdrAddr
      · rw [hd, word_memWrite_same _ _ _ hw]
        exact zext16_ne_zero hc
      · rw [word_memWrite_other _ _ hd]
        by_cases hk : b = s.cfg.kbsrAddr
        · rw [hk, word_memWrite_same _ _ _ (show (s.polled.setKbdIn cs).mem.wf = true from h.wf)]
          decide
        · rw [word_memWrite_other _ _ hk]
          exact hb.resolve_left hk
    rw [memRead_status]
    refine ⟨hword _ (.inl rfl), ?_⟩
    refine ⟨by rw [e]; exact memWrite_wf _ _ _ hw, fun b hb => hword b (.inr (h.words b (by simpa using hb))),
      by simpa using h.held, by rw [e]; exact hcs, ?_, by rw [e]; exact h.run_polled⟩
    rw [e]
    exact fun d hd => h.ready d (List.mem_of_mem_tail hd)
  · rw [memRead_plain s ha]
    exact ⟨h.words a ha, h⟩

/-- The hang: the loop never ends there. -/
theorem NoZeroAhead.never (chars : Word → List Byte) : ∀ (n : Nat) {s : State} (a : Word), NoZeroAhead s →
    stringLoop chars n a s = none
  | 0, _, _, _ => rfl
  | n + 1, s, a, h => by
    obtain ⟨h0, h'⟩ := h.memRead a
    rw [stringLoop_more chars n h0]
    exact NoZeroAhead.never chars n (a + 1#16) ⟨h'.wf, h'.words, h'.held, h'.listed, h'.ready, h'.run⟩

/-- The answers that can still be used up. -/
def answersLeft (s : State) : Nat := s.kbdPolls.length + runLength (pollRunOf s)

/-- A poll that finds a character ready uses up an answer, unless every poll from there on does. -/
theorem answersLeft_polled {s : State} (h : pollReady s = true) :
    answersLeft s.polled + 1 = answersLeft s ∨ answersLeft s.polled = answersLeft s ∧ s.kbdPolls = [] ∧ pollRunOf s = .forever := by
  cases hp : s.kbdPolls with
  | cons d ds =>
    left
    simp only [answersLeft, pollRunOf_polled_given s hp, polled_kbdPolls, hp, List.tail_cons, List.length_cons]
    omega
  | nil =>
    rw [pollReady_run s hp] at h
    cases hr : pollRunOf s with
    | forever =>
      have hn := pollRunOf_polled_run s hp (r := .forever) (by rw [hr]; rfl)
      exact .inr ⟨by simp [answersLeft, hn, hr, hp], rfl, rfl⟩
    | times k =>
      cases k with
      | zero => rw [hr] at h; cases h
      | succ k =>
        have hn := pollRunOf_polled_run s hp (r := .times k) (by rw [hr]; rfl)
        exact .inl (by simp [answersLeft, hn, hr, hp, runLength])

/-- A loop that has not ended within a bound never does: each lap reads the status word once, and that read uses up a
character or an answer, or finds a key held down that every later poll finds ready, and then the lap after it decides. -/
theorem stringLoop_never_from (chars : Word → List Byte) : ∀ (n : Nat) (a : Word) (s : State), s.mem.wf = true →
    65536 * (s.kbdIn.length + answersLeft s + 1) + (s.cfg.kbsrAddr - a).toNat + 1 ≤ n → stringLoop chars n a s = none →
    s.kbdHeld ≠ none ∧ ∀ m, stringLoop chars m a s = none
  | 0, a, s, _, hn, _ => by omega
  | n + 1, a, s, hw, hn, hnone => by
    have h0 : (memRead s a).1 ≠ 0x0000#16 := by
      intro h0
      rw [stringLoop_end chars n h0] at hnone
      cases hnone
    rw [stringLoop_more chars n h0] at hnone
    suffices H : s.kbdHeld ≠ none ∧
        ∀ m, stringLoop chars m (a + 1#16) (conOut (memRead s a).2 (chars (memRead s a).1)) = none from
      ⟨H.1, stringLoop_none_of_more h0 H.2⟩
    by_cases ha : a = s.cfg.kbsrAddr
    · subst ha
      rw [memRead_status] at h0 hnone ⊢
      have hone : (s.cfg.kbsrAddr - (s.cfg.kbsrAddr + 1#16)).toNat = 65535 := by bv_omega
      have hready := statusRead_ready s hw h0
      rcases statusRead_cases s with ⟨t, ht, e⟩ | ⟨c, cs, hk, e⟩
      · rw [e] at h0
        exact absurd (word_memWrite_same t _ _ (by rcases ht with rfl | rfl <;> exact hw)) h0
      have hwf : (statusRead s).mem.wf = true := by
        rw [e]
        exact memWrite_wf _ _ _ (memWrite_wf _ _ _ hw)
      have hin : (statusRead s).kbdIn = cs := by rw [e]; rfl
      have hpolls : (statusRead s).kbdPolls = s.kbdPolls.tail := by rw [e]; rfl
      have hrun : pollRunOf (statusRead s) = pollRunOf s.polled := by rw [e]; rfl
      have hleft : answersLeft (statusRead s) = answersLeft s.polled := by rw [answersLeft, hrun, hpolls]; rfl
      by_cases hlast : s.kbdIn = [] ∧ s.kbdPolls = [] ∧ pollRunOf s = .forever
      · rcases hk with hk | ⟨_, hh, hcs⟩
        · rw [hlast.1] at hk
          cases hk
        refine ⟨by simp [hh], fun m => NoZeroAhead.never chars m _ ?_⟩
        have hwords : ∀ b, b ≠ s.cfg.kbsrAddr → (statusRead s).word b ≠ 0x0000#16 := by
          intro b hb hz
          have hlt : (b - (s.cfg.kbsrAddr + 1#16)).toNat < 65535 := by
            generalize s.cfg.kbsrAddr = k at *
            bv_omega
          have hahead : (b - (s.cfg.kbsrAddr + 1#16)).toNat <
              ((conOut (statusRead s) (chars ((statusRead s).word s.cfg.kbsrAddr))).cfg.kbsrAddr - (s.cfg.kbsrAddr + 1#16)).toNat := by
            rw [conOut_cfg, statusRead_cfg, hone]
            exact hlt
          obtain ⟨t, ht⟩ := stringLoop_ends_at_zero chars n _ (conOut (statusRead s) _) hz (.inr hahead) (by omega)
          rw [ht] at hnone
          cases hnone
        have hc : c ≠ 0#8 := by
          intro hc
          have hd : (statusRead s).word s.cfg.kbdrAddr = 0x0000#16 := by
            rw [e, word_memWrite_same _ _ _ (memWrite_wf (s.polled.setKbdIn cs) _ _ hw), hc]
            rfl
          by_cases hkk : s.cfg.kbdrAddr = s.cfg.kbsrAddr
          · exact h0 (hkk ▸ hd)
          · exact hwords _ hkk hd
        exact ⟨hwf, fun b hb => hwords b (by simpa using hb), ⟨c, by simpa using hh, hc⟩, by simp [hin, hcs],
          by simp [hpolls, hlast.2.1],
          hrun.trans (pollRunOf_polled_run s hlast.2.1 (by rw [hlast.2.2]; rfl))⟩
      · have hless : cs.length + answersLeft s.polled + 1 ≤ s.kbdIn.length + answersLeft s := by
          rcases hk with hk | ⟨hk, _, hcs⟩ <;> rcases answersLeft_polled hready with h | ⟨h, hp, hr⟩
          · simp only [hk, List.length_cons]
            omega
          · simp only [hk, List.length_cons]
            omega
          · simp only [hk, hcs, List.length_nil]
            omega
          · exact absurd ⟨hk, hp, hr⟩ hlast
        have ih := stringLoop_never_from chars n _ (conOut (statusRead s) (chars ((statusRead s).word s.cfg.kbsrAddr))) hwf
          (by
            show 65536 * ((statusRead s).kbdIn.length + answersLeft (statusRead s) + 1) +
              ((statusRead s).cfg.kbsrAddr - (s.cfg.kbsrAddr + 1#16)).toNat + 1 ≤ n
            rw [hin, hleft, statusRead_cfg, hone]
            omega) hnone
        exact ⟨by simpa using ih.1, ih.2⟩
    · rw [memRead_plain s ha] at h0 hnone ⊢
      have hk : (s.cfg.kbsrAddr - (a + 1#16)).toNat + 1 = (s.cfg.kbsrAddr - a).toNat := by
        generalize s.cfg.kbsrAddr = k at *
        bv_omega
      exact stringLoop_never_from chars n _ (conOut s (chars (s.word a))) hw
        (by
          show 65536 * (s.kbdIn.length + answersLeft s + 1) + (s.cfg.kbsrAddr - (a + 1#16)).toNat + 1 ≤ n
          omega) hnone

/-- `stringFuel` decides: a service that has not ended within it never ends, and then a key is held down. -/
theorem stringLoop_never (chars : Word → List Byte) {a : Word} {s : State} (hw : s.mem.wf = true)
    (h : stringLoop chars (stringFuel s) a s = none) : s.kbdHeld ≠ none ∧ ∀ m, stringLoop chars m a s = none :=
  stringLoop_never_from chars _ a s hw
    (by have := (s.cfg.kbsrAddr - a).isLt; unfold stringFuel answersLeft; omega) h

/-- A zero word outside the two keyboard words ends every service within `stringFuel`. -/
theorem stringLoop_ends_at_word (chars : Word → List Byte) {a z : Word} {s : State} (h1 : z ≠ s.cfg.kbsrAddr)
    (h2 : z ≠ s.cfg.kbdrAddr) (hz : s.word z = 0x0000#16) : ∃ t, stringLoop chars (stringFuel s) a s = some t :=
  stringLoop_ends_at_zero chars _ a s hz (.inl ⟨h1, h2⟩) (by have := (z - a).isLt; unfold stringFuel; omega)

theorem stringService_ends {chars : Word → List Byte} {s t : State}
    (h : stringLoop chars (stringFuel s) (s.reg .r0) s = some t) : stringService chars s = retContinue t := by
  simp [stringService, stringEnd_eq, h]

theorem stringService_hangs {chars : Word → List Byte} {s : State}
    (h : stringLoop chars (stringFuel s) (s.reg .r0) s = none) : stringService chars s = .fault (.stringUnending s) := by
  simp [stringService, stringEnd_eq, h]

/-- A string service answers the loop's end or the hang, nothing else. -/
theorem stringService_cases (chars : Word → List Byte) (s : State) :
    (∃ t, stringLoop chars (stringFuel s) (s.reg .r0) s = some t ∧ stringService chars s = retContinue t) ∨
    (stringLoop chars (stringFuel s) (s.reg .r0) s = none ∧ stringService chars s = .fault (.stringUnending s)) := by
  cases h : stringLoop chars (stringFuel s) (s.reg .r0) s with
  | some t => exact .inl ⟨t, rfl, stringService_ends h⟩
  | none => exact .inr ⟨rfl, stringService_hangs h⟩

theorem readChar_waits (echo : Bool) {s : State} (h : s.kbdIn = []) (hh : s.kbdHeld = none) :
    readChar echo s = .fault (.awaitsKey s) := by
  simp [readChar, kbdGet_empty s h hh]

theorem readChar_reads (echo : Bool) {s t : State} {c : Byte} (h : kbdGet s = some (c, t)) :
    readChar echo s = retContinue (defineReg (if echo then conOut t [c] else t) .r0 (zext16 c)) := by
  simp [readChar, h]

/-- A character read that answers a next state has consumed the first character of KbdIn, listed or held, into R0. -/
theorem readChar_next {echo : Bool} {s t : State} (h : readChar echo s = .next t) :
    ∃ c cs, (s.kbdIn = c :: cs ∨ s.kbdIn = [] ∧ s.kbdHeld = some c ∧ cs = []) ∧
      t = (defineReg (if echo then conOut (s.setKbdIn cs) [c] else s.setKbdIn cs) .r0 (zext16 c)).setSignal .cont := by
  rcases kbdGet_cases s with ⟨hk, hh, _⟩ | ⟨c, cs, hk, hg⟩
  · rw [readChar_waits echo hk hh] at h
    cases h
  · rw [readChar_reads echo hg] at h
    exact ⟨c, cs, hk, retContinue_next.1 h⟩

/-- A string service that answers a next state has ended its loop. -/
theorem stringService_next {chars : Word → List Byte} {s t : State} (h : stringService chars s = .next t) :
    ∃ u, stringLoop chars (stringFuel s) (s.reg .r0) s = some u ∧ t = u.setSignal .cont := by
  rcases stringService_cases chars s with ⟨u, hu, e⟩ | ⟨_, e⟩
  · exact ⟨u, hu, retContinue_next.1 (e ▸ h)⟩
  · rw [e] at h; cases h

end Sys2Proof.Machine
end

