-- ==== Sys2Proof/Tests/Slice0.lean ====
section
/-! SUPPORT. The model's own tests. Expected results are the vectors of spec/95_test_vectors.md and the layouts of
spec/30_encoding.md R57; a test that rests on another file names it. Then a witness for each statement with hypotheses. -/

namespace Sys2Proof.Tests

open Sys2Proof Sys2Proof.Machine

/-! ### Ill-formed terms are refused (R61: the vector of an unlisted trap lies in its own row) -/

theorem test_wellFormed_refuses_00 : (Instr.trapUnlisted00 0x20#8).wellFormed defaultConfig = false := by decide
theorem test_wellFormed_refuses_26 :
    (Instr.trapUnlisted26 0x25#8).wellFormed defaultConfig = false ∧ (Instr.trapUnlisted26 0x28#8).wellFormed defaultConfig = false := by decide
theorem test_wellFormed_refuses_28 :
    (Instr.trapUnlisted28 0x27#8).wellFormed defaultConfig = false ∧ (Instr.trapUnlisted28 0x30#8).wellFormed defaultConfig = false := by decide
theorem test_wellFormed_refuses_30 :
    (Instr.trapUnlisted30 0x2F#8).wellFormed defaultConfig = false ∧ (Instr.trapUnlisted30 0x40#8).wellFormed defaultConfig = false := by decide
theorem test_wellFormed_refuses_40 :
    (Instr.trapUnlisted40 0x3F#8).wellFormed defaultConfig = false ∧ (Instr.trapUnlisted40 0x80#8).wellFormed defaultConfig = false := by decide
theorem test_wellFormed_refuses_80 : (Instr.trapUnlisted80 0x7F#8).wellFormed defaultConfig = false := by decide

/-! ### Words written out field by field from R57 with the default maps, and the instructions they stand for -/

theorem test_decode_BR :
    decode defaultConfig (0b0000#4 ++ 0b101#3 ++ 0b111111101#9) = .br true false true 0b111111101#9 ∧
    decode defaultConfig (0b0000#4 ++ 0b010#3 ++ 0b000000101#9) = .br false true false 5#9 := by decide
theorem test_decode_ADD_register : decode defaultConfig (0b0001#4 ++ 0b011#3 ++ 0b001#3 ++ 0b0#1 ++ 0b11#2 ++ 0b010#3) = .addReg .r3 .r1 .r2 := by
  decide
theorem test_decode_ADD_immediate : decode defaultConfig (0b0001#4 ++ 0b010#3 ++ 0b001#3 ++ 0b1#1 ++ 0b11101#5) = .addImm .r2 .r1 0b11101#5 := by
  decide
theorem test_decode_LD : decode defaultConfig (0b0010#4 ++ 0b011#3 ++ 0b100001010#9) = .ld .r3 0b100001010#9 := by decide
theorem test_decode_ST : decode defaultConfig (0b0011#4 ++ 0b101#3 ++ 0b000000111#9) = .st .r5 7#9 := by decide
theorem test_decode_JSR : decode defaultConfig (0b0100#4 ++ 0b1#1 ++ 0b10000000001#11) = .jsr 0b10000000001#11 := by decide
theorem test_decode_JSRR : decode defaultConfig (0b0100#4 ++ 0b011#3 ++ 0b110#3 ++ 0b101010#6) = .jsrr .r6 := by decide
theorem test_decode_AND_register : decode defaultConfig (0b0101#4 ++ 0b011#3 ++ 0b001#3 ++ 0b0#1 ++ 0b00#2 ++ 0b010#3) = .andReg .r3 .r1 .r2 := by
  decide
theorem test_decode_AND_immediate : decode defaultConfig (0b0101#4 ++ 0b010#3 ++ 0b001#3 ++ 0b1#1 ++ 0b10000#5) = .andImm .r2 .r1 0b10000#5 := by
  decide
theorem test_decode_LDR : decode defaultConfig (0b0110#4 ++ 0b010#3 ++ 0b001#3 ++ 0b100000#6) = .ldr .r2 .r1 0b100000#6 := by decide
theorem test_decode_STR : decode defaultConfig (0b0111#4 ++ 0b100#3 ++ 0b001#3 ++ 0b111111#6) = .str .r4 .r1 0b111111#6 := by decide
theorem test_decode_RTI : decode defaultConfig (0b1000#4 ++ 0x000#12) = .rti ∧ decode defaultConfig (0b1000#4 ++ 0xFFF#12) = .rti := by decide
theorem test_decode_NOT :
    decode defaultConfig (0b1001#4 ++ 0b010#3 ++ 0b001#3 ++ 0b111111#6) = .not .r2 .r1 ∧
    decode defaultConfig (0b1001#4 ++ 0b010#3 ++ 0b001#3 ++ 0b000000#6) = .not .r2 .r1 := by decide
theorem test_decode_LDI : decode defaultConfig (0b1010#4 ++ 0b100#3 ++ 0b000001001#9) = .ldi .r4 9#9 := by decide
theorem test_decode_STI : decode defaultConfig (0b1011#4 ++ 0b010#3 ++ 0b000000111#9) = .sti .r2 7#9 := by decide
theorem test_decode_JMP :
    decode defaultConfig (0b1100#4 ++ 0b111#3 ++ 0b011#3 ++ 0b111111#6) = .jmp .r3 ∧
    decode defaultConfig (0b1100#4 ++ 0b000#3 ++ 0b111#3 ++ 0b000000#6) = .jmp .r7 := by decide
theorem test_decode_RES : decode defaultConfig (0b1101#4 ++ 0xABC#12) = .res := by decide
theorem test_decode_LEA : decode defaultConfig (0b1110#4 ++ 0b001#3 ++ 0b000001011#9) = .lea .r1 11#9 := by decide
theorem test_decode_services :
    decode defaultConfig (0b1111#4 ++ 0x0#4 ++ 0x20#8) = .trapGetc ∧ decode defaultConfig (0b1111#4 ++ 0x0#4 ++ 0x21#8) = .trapOut ∧
    decode defaultConfig (0b1111#4 ++ 0x0#4 ++ 0x22#8) = .trapPuts ∧ decode defaultConfig (0b1111#4 ++ 0x0#4 ++ 0x23#8) = .trapIn ∧
    decode defaultConfig (0b1111#4 ++ 0x0#4 ++ 0x24#8) = .trapPutsp ∧ decode defaultConfig (0b1111#4 ++ 0x1#4 ++ 0x25#8) = .trapHalt := by decide
theorem test_decode_unlisted_traps :
    decode defaultConfig (0b1111#4 ++ 0x0#4 ++ 0x1F#8) = .trapUnlisted00 0x1F#8 ∧ decode defaultConfig (0b1111#4 ++ 0x0#4 ++ 0x26#8) = .trapUnlisted26 0x26#8 ∧
    decode defaultConfig (0b1111#4 ++ 0x0#4 ++ 0x2F#8) = .trapUnlisted28 0x2F#8 ∧ decode defaultConfig (0b1111#4 ++ 0x0#4 ++ 0x30#8) = .trapUnlisted30 0x30#8 ∧
    decode defaultConfig (0b1111#4 ++ 0x0#4 ++ 0x7F#8) = .trapUnlisted40 0x7F#8 ∧ decode defaultConfig (0b1111#4 ++ 0xF#4 ++ 0x80#8) = .trapUnlisted80 0x80#8 := by
  decide

/-- The canonical words of R58, encoded. -/
theorem test_encode_canonical_words :
    encode defaultConfig (.addReg .r3 .r1 .r2) = 0x1642#16 ∧ encode defaultConfig (.not .r2 .r1) = 0x947F#16 ∧ encode defaultConfig (.jmp .r7) = 0xC1C0#16 ∧
    encode defaultConfig (.jsrr .r2) = 0x4080#16 ∧ encode defaultConfig .rti = 0x8000#16 ∧ encode defaultConfig .trapHalt = 0xF025#16 ∧
    encode defaultConfig (.br false false true 0x1FD#9) = 0x03FD#16 := by decide

/-- With other maps, the same layout means what those maps say (R7): HALT moved to vector 0x30 and back, BR and LEA swapped. -/
def otherMaps : Config :=
  { defaultConfig with
    trapMap := { defaultTrapMap with halt := 0x30#8 }, opcodeMap := { defaultOpcodeMap with br := 0xE#4, lea := 0x0#4 } }

theorem test_maps_are_parameters :
    otherMaps.mapsWf = true ∧ decode otherMaps 0xF030#16 = .trapHalt ∧ decode otherMaps 0xF025#16 = .trapUnlisted00 0x25#8 ∧
    (Instr.trapUnlisted00 0x25#8).wellFormed otherMaps = true ∧ decode otherMaps 0xE205#16 = .br false false true 5#9 ∧
    decode otherMaps 0x0005#16 = .lea .r0 5#9 := by decide
theorem test_maps_with_a_repeated_value_are_refused :
    ({ defaultConfig with trapMap := { defaultTrapMap with halt := 0x20#8 } } : Config).mapsWf = false ∧
    ({ defaultConfig with opcodeMap := { defaultOpcodeMap with lea := 0x0#4 } } : Config).mapsWf = false := by decide

/-! ### One step from reset with a few words and registers changed -/

/-- Reset with this memory and these registers. -/
def start (m : Memory) (g : Regs) : State := { State.reset with mem := m, regs := g }

/-- The registers after reset. -/
def zeros : Regs := defaultResetGpr

/-- What `f` sees of the state after one step, `none` where there is no next state. -/
def after {α : Type} (s : State) (f : State → α) : Option α :=
  match step s with
  | .next t => some (f t)
  | .fault _ => none
  | .refused _ => none

/-- The state of a fatal step. -/
def fatalState : StepOutcome → Option State
  | .fault (.badInstruction s) => some s
  | .fault (.awaitsKey _) => none
  | .fault (.stringUnending _) => none
  | .next _ => none
  | .refused _ => none

theorem test_ADD_register_overflows :
    after (start [(0x3000, 0x1642#16)] { zeros with r1 := 0x7FFF#16, r2 := 0x0001#16 }) (fun t => (t.reg .r3, t.cond, t.pc)) =
      some (0x8000#16, 0b100#3, 0x3001#16) := by decide
theorem test_ADD_register_wraps_to_zero :
    after (start [(0x3000, 0x1642#16)] { zeros with r1 := 0xFFFF#16, r2 := 0x0001#16 }) (fun t => (t.reg .r3, t.cond)) =
      some (0x0000#16, 0b010#3) := by decide
theorem test_ADD_immediate_is_signed :
    after (start [(0x3000, 0x147D#16)] { zeros with r1 := 0x0005#16 }) (fun t => (t.reg .r2, t.cond, t.pc)) =
      some (0x0002#16, 0b001#3, 0x3001#16) := by decide
theorem test_AND_register :
    after (start [(0x3000, 0x5642#16)] { zeros with r1 := 0x8001#16, r2 := 0x8000#16 }) (fun t => (t.reg .r3, t.cond)) =
      some (0x8000#16, 0b100#3) := by decide
theorem test_AND_immediate_is_sign_extended :
    after (start [(0x3000, 0x5470#16)] { zeros with r1 := 0xABCD#16 }) (fun t => (t.reg .r2, t.cond)) =
      some (0xABC0#16, 0b100#3) := by decide
theorem test_NOT :
    after (start [(0x3000, 0x947F#16)] { zeros with r1 := 0x8000#16 }) (fun t => (t.reg .r2, t.cond)) =
      some (0x7FFF#16, 0b001#3) := by decide
theorem test_BR_taken_on_zero_not_on_negative :
    after (start [(0x3000, 0x0405#16)] zeros) (fun t => (t.pc, t.cond)) = some (0x3006#16, 0b010#3) ∧
    after (start [(0x3000, 0x0805#16)] zeros) (fun t => (t.pc, t.cond)) = some (0x3001#16, 0b010#3) := by decide
theorem test_BR_wraps_at_the_top :
    after { start [(0xFFFF, 0x0E02#16)] zeros with pc := 0xFFFF#16 } (fun t => t.pc) = some 0x0002#16 := by decide
theorem test_JMP_to_its_base :
    after (start [(0x3000, 0xCEFF#16)] { zeros with r3 := 0x1234#16 }) (fun t => (t.pc, t.reg .r7)) =
      some (0x1234#16, 0x0000#16) := by decide
theorem test_JSR_backward :
    after (start [(0x3000, 0x4C00#16)] zeros) (fun t => (t.reg .r7, t.pc, t.cond)) =
      some (0x3001#16, 0x2C01#16, 0b010#3) := by decide
theorem test_JSRR :
    after (start [(0x3000, 0x4080#16)] { zeros with r2 := 0x4000#16 }) (fun t => (t.reg .r7, t.pc)) =
      some (0x3001#16, 0x4000#16) := by decide
theorem test_JSRR_through_R7 :
    after (start [(0x3000, 0x41C0#16)] { zeros with r7 := 0x4000#16 }) (fun t => (t.reg .r7, t.pc)) =
      some (0x3001#16, 0x3001#16) := by decide
theorem test_LD_of_its_own_word :
    after (start [(0x3000, 0x23FF#16)] zeros) (fun t => (t.reg .r1, t.cond)) = some (0x23FF#16, 0b001#3) := by decide
theorem test_LD_wraps :
    after { start [(0x0000, 0x8000#16), (0xFFFE, 0x2201#16)] zeros with pc := 0xFFFE#16 } (fun t => (t.reg .r1, t.cond, t.pc)) =
      some (0x8000#16, 0b100#3, 0xFFFF#16) := by decide
theorem test_LDI :
    after { start [(0x3003, 0xA809#16), (0x300D, 0x3010#16), (0x3010, 0xFFFE#16)] zeros with pc := 0x3003#16 }
      (fun t => (t.reg .r4, t.cond, t.pc)) = some (0xFFFE#16, 0b100#3, 0x3004#16) := by decide
theorem test_LDR_offset_is_signed :
    after (start [(0x3000, 0x6460#16), (0xFFF0, 0xBEEF#16)] { zeros with r1 := 0x0010#16 }) (fun t => (t.reg .r2, t.cond)) =
      some (0xBEEF#16, 0b100#3) := by decide
theorem test_LDR_base_is_destination :
    after (start [(0x3000, 0x6240#16), (0x4000, 0x0007#16)] { zeros with r1 := 0x4000#16 }) (fun t => (t.reg .r1, t.cond)) =
      some (0x0007#16, 0b001#3) := by decide
theorem test_LEA_sets_flags :
    after (start [(0x3000, 0xE100#16)] zeros) (fun t => (t.reg .r0, t.cond, t.pc)) =
      some (0x2F01#16, 0b001#3, 0x3001#16) := by decide
theorem test_ST :
    after { start [(0x3006, 0x3A07#16)] { zeros with r5 := 0x1235#16 } with pc := 0x3006#16 }
      (fun t => (t.mem, t.cond, t.pc)) = some ([(0x3006, 0x3A07#16), (0x300E, 0x1235#16)], 0b010#3, 0x3007#16) := by decide
theorem test_STI_pointer_overwrites_itself :
    after (start [(0x3000, 0xB400#16), (0x3001, 0x3001#16)] { zeros with r2 := 0x5555#16 }) (fun t => t.mem) =
      some [(0x3000, 0xB400#16), (0x3001, 0x5555#16)] := by decide
theorem test_STR_below_its_base :
    after (start [(0x3000, 0x787F#16)] { zeros with r4 := 0xFFFE#16, r1 := 0x300C#16 }) (fun t => t.mem) =
      some [(0x3000, 0x787F#16), (0x300B, 0xFFFE#16)] := by decide
/-- Storing what an unlisted address reads as removes the entry (log 3). -/
theorem test_ST_of_zero_keeps_memory_canonical :
    after (start [(0x3000, 0x3000#16), (0x3001, 0x0009#16)] zeros) (fun t => t.mem) = some [(0x3000, 0x3000#16)] := by decide
theorem test_GETC_zero_extends :
    after { start [(0x3000, 0xF020#16)] zeros with kbdIn := [0xFF#8] }
      (fun t => (t.reg .r0, t.cond, t.conOutLog, t.kbdIn, t.reg .r7)) = some (0x00FF#16, 0b001#3, [], [], 0x3001#16) := by decide
theorem test_GETC_of_a_zero_character :
    after { start [(0x3000, 0xF020#16)] { zeros with r0 := 0x1234#16 } with kbdIn := [0x00#8] } (fun t => (t.reg .r0, t.cond)) =
      some (0x0000#16, 0b010#3) := by decide
theorem test_GETC_never_completes_without_a_key : after (start [(0x3000, 0xF020#16)] zeros) (fun t => t.pc) = none := by decide
theorem test_GETC_of_a_key_held_down :
    after { start [(0x3000, 0xF020#16)] zeros with kbdHeld := some 0x61#8 } (fun t => (t.reg .r0, t.kbdIn, t.kbdHeld)) =
      some (0x0061#16, [], some 0x61#8) := by decide
theorem test_OUT_writes_the_low_byte :
    after (start [(0x3000, 0xF021#16)] { zeros with r0 := 0x1241#16 }) (fun t => (t.conOutLog, t.reg .r0, t.cond)) =
      some ([0x41#8], 0x1241#16, 0b010#3) := by decide
theorem test_PUTS_low_bytes_only :
    after (start [(0x3000, 0xF022#16), (0x4000, 0x4100#16), (0x4001, 0x0142#16)] { zeros with r0 := 0x4000#16 })
      (fun t => (t.conOutLog, t.reg .r7)) = some ([0x00#8, 0x42#8], 0x3001#16) := by decide
theorem test_PUTS_pointer_wraps :
    after (start [(0x0000, 0x0042#16), (0x3000, 0xF022#16), (0xFFFF, 0x0041#16)] { zeros with r0 := 0xFFFF#16 })
      (fun t => t.conOutLog) = some [0x41#8, 0x42#8] := by decide
theorem test_IN_prompts_and_echoes :
    after { start [(0x3000, 0xF023#16)] zeros with kbdIn := [0x79#8] } (fun t => (t.conOutLog, t.reg .r0, t.cond)) =
      some (defaultInPrompt ++ [0x79#8], 0x0079#16, 0b001#3) := by decide
theorem test_PUTSP_low_byte_first :
    after (start [(0x3000, 0xF024#16), (0x4000, 0x6548#16), (0x4001, 0x006C#16)] { zeros with r0 := 0x4000#16 })
      (fun t => t.conOutLog) = some [0x48#8, 0x65#8, 0x6C#8] := by decide
theorem test_PUTSP_zero_low_byte :
    after (start [(0x3000, 0xF024#16), (0x4000, 0x4100#16)] { zeros with r0 := 0x4000#16 }) (fun t => t.conOutLog) =
      some [0x00#8, 0x41#8] := by decide
theorem test_HALT :
    after (start [(0x3000, 0xF125#16)] zeros) (fun t => (t.signal, t.pc, t.reg .r7, t.cond, t.conOutLog)) =
      some (.halt, 0x3001#16, 0x3001#16, 0b010#3, []) := by decide
theorem test_unlisted_traps_write_only_R7 :
    after (start [(0x3000, 0xF000#16)] zeros) id =
      some { start [(0x3000, 0xF000#16)] { zeros with r7 := 0x3001#16 } with pc := 0x3001#16 } ∧
    after (start [(0x3000, 0xF0FF#16)] { zeros with r7 := 0x1111#16 }) (fun t => (t.reg .r7, t.pc, t.signal)) =
      some (0x3001#16, 0x3001#16, .cont) := by decide
theorem test_RES_and_RTI_are_fatal :
    fatalState (step (start [(0x3000, 0xDABC#16)] zeros)) = some { start [(0x3000, 0xDABC#16)] zeros with pc := 0x3001#16 } ∧
    fatalState (step (start [(0x3000, 0x8FFF#16)] zeros)) = some { start [(0x3000, 0x8FFF#16)] zeros with pc := 0x3001#16 } := by
  decide

/-! ### The keyboard words -/

theorem test_status_read_with_a_key :
    (memRead { State.reset with kbdIn := [0x41#8, 0x42#8], kbdPolls := [true] } 0xFE00#16).1 = 0x8000#16 ∧
    (memRead { State.reset with kbdIn := [0x41#8, 0x42#8], kbdPolls := [true] } 0xFE00#16).2.mem =
      [(0xFE00, 0x8000#16), (0xFE02, 0x0041#16)] ∧
    (memRead { State.reset with kbdIn := [0x41#8, 0x42#8], kbdPolls := [true] } 0xFE00#16).2.kbdIn = [0x42#8] := by decide
theorem test_status_read_without_a_key :
    (memRead { State.reset with mem := [(0xFE00, 0x8000#16), (0xFE02, 0x0042#16)] } 0xFE00#16).1 = 0x0000#16 ∧
    (memRead { State.reset with mem := [(0xFE00, 0x8000#16), (0xFE02, 0x0042#16)] } 0xFE00#16).2.mem = [(0xFE02, 0x0042#16)] := by
  decide
theorem test_status_read_of_a_key_held_down :
    (memRead { State.reset with kbdHeld := some 0x41#8, kbdPolls := [true] } 0xFE00#16).1 = 0x8000#16 ∧
    (memRead { State.reset with kbdHeld := some 0x41#8, kbdPolls := [false] } 0xFE00#16).1 = 0x0000#16 := by decide
/-- spec/10_state.md R21: an answer that is not listed can be either, for a key held down too. -/
theorem test_run_of_poll_answers :
    (memRead { State.reset with kbdHeld := some 0x41#8, pollRun := some (.times 1) } 0xFE00#16).1 = 0x8000#16 ∧
    (memRead (memRead { State.reset with kbdHeld := some 0x41#8, pollRun := some (.times 1) } 0xFE00#16).2 0xFE00#16).1 = 0x0000#16 := by
  decide
theorem test_data_read_is_plain :
    memRead { State.reset with mem := [(0xFE02, 0x0055#16)], kbdIn := [0x41#8] } 0xFE02#16 =
      (0x0055#16, { State.reset with mem := [(0xFE02, 0x0055#16)], kbdIn := [0x41#8] }) := by decide
theorem test_status_write_then_read :
    (memRead (memWrite { State.reset with kbdIn := [0x43#8], kbdPolls := [true] } 0xFE00#16 0x0001#16) 0xFE00#16).1 = 0x8000#16 := by
  decide

/-! ### The host's side -/

/-- S3: the file bytes 30 00 10 25 10 3D F0 25. -/
theorem test_loadImage :
    (State.reset.loadImage [0x30#8, 0x00#8, 0x10#8, 0x25#8, 0x10#8, 0x3D#8, 0xF0#8, 0x25#8]).mem =
      [(0x3000, 0x1025#16), (0x3001, 0x103D#16), (0x3002, 0xF025#16)] := by decide
/-- spec/70_reset_and_hazards.md R163, D28: a load does not wrap past the last word. -/
theorem test_loadImage_stops_at_the_end :
    (State.reset.loadImage [0xFF#8, 0xFF#8, 0x00#8, 0x01#8, 0x00#8, 0x02#8]).mem = [(0xFFFF, 0x0001#16)] := by decide
theorem test_decodeTableWord : decodeTableWord 16 0x1642 = some (.addReg .r3 .r1 .r2) ∧ decodeTableWord 32 0x1642 = none := by decide
theorem test_withFetchWord_runs_next :
    after (State.reset.withFetchWord 16 0x1025) (fun t => (t.reg .r0, t.cond, t.pc)) =
      some (0x0005#16, 0b001#3, 0x3001#16) := by decide

/-! ### Witnesses: a concrete input for the hypotheses of each statement that has any -/

/-- A state about to run the word `w`, whose registers and device streams hold something. -/
def busy (w : Word) : State :=
  { State.reset with
    mem := Memory.cons 0x3000 w [(0x3005, 0xFE00#16), (0x3006, 0x0041#16)], kbdIn := [0x61#8, 0x62#8], kbdPolls := [true, false],
    regs := { zeros with r0 := 0x3006#16, r1 := 0x8000#16, r2 := 0xFE00#16, r7 := 0x1111#16 } }

theorem witness_DecodeOfEncodeIsTheInstruction :
    defaultConfig.mapsWf = true ∧ (Instr.trapUnlisted26 0x27#8).wellFormed defaultConfig = true ∧ (Instr.br true false true 0x100#9).wellFormed defaultConfig = true ∧
    otherMaps.mapsWf = true ∧ (Instr.trapUnlisted00 0x25#8).wellFormed otherMaps = true := by decide

theorem witness_EncodeOfDecodeKeepsEveryBitThatMatters : defaultConfig.mapsWf = true ∧ otherMaps.mapsWf = true := by decide

theorem witness_IgnoredBitsHaveNoEffect :
    0x165A#16 &&& ~~~ (ignoredBits (decode defaultConfig 0x1642#16)) = 0x1642#16 &&& ~~~ (ignoredBits (decode defaultConfig 0x1642#16)) ∧
    0xFF25#16 &&& ~~~ (ignoredBits (decode defaultConfig 0xF025#16)) = 0xF025#16 &&& ~~~ (ignoredBits (decode defaultConfig 0xF025#16)) := by decide

/-- S1, each width at its sign bit. -/
theorem witness_SignExtensionIsTwosComplementWidening :
    sext (field 0x0010#16 0 5) = 0xFFF0#16 ∧ sext (field 0x0020#16 0 6) = 0xFFE0#16 ∧ sext (field 0x0100#16 0 9) = 0xFF00#16 ∧
    sext (field 0x0400#16 0 11) = 0xFC00#16 ∧ sext (field 0xFFEF#16 0 5) = 0x000F#16 := by decide

theorem witness_RegisterFileReadsWhatWasWritten :
    Reg.ofBits 7#3 = Reg.ofBits 7#3 ∧ Reg.ofBits 7#3 = .r7 ∧ ((busy 0#16).setReg .r7 5#16).reg .r7 = 5#16 := by decide

/-- A word that is zero, one that is negative, one that is positive. -/
theorem witness_SetccReportsTheSign :
    (setcc State.reset 0x0000#16).cond = condZ ∧ (setcc State.reset 0x8000#16).cond = condN ∧
    (setcc State.reset 0x7FFF#16).cond = condP := by decide

theorem witness_CondIsWrittenAndReadOnlyAsListed :
    (∃ t, exec (.ld .r0 5#9) (busy 0#16) = .next t) ∧ flagSource (.ld .r0 5#9) = some .r0 ∧ flagSource (.st .r0 5#9) = none ∧
    (∃ t, exec (.st .r0 5#9) (busy 0#16) = .next t) ∧ isBr (.st .r0 5#9) = false ∧ OneFlag (busy 0#16).cond :=
  ⟨⟨_, rfl⟩, rfl, rfl, ⟨_, rfl⟩, rfl, .inr (.inl rfl)⟩

/-- PC at the last word: it wraps to 0. -/
theorem witness_PcAdvancesByOneUnlessATransferWritesIt :
    (∃ t, step { start [(0xFFFF, 0x1025#16)] zeros with pc := 0xFFFF#16 } = .next t ∧ t.pc = 0x0000#16) ∧
    writesPC (decode defaultConfig (memRead { start [(0xFFFF, 0x1025#16)] zeros with pc := 0xFFFF#16 } 0xFFFF#16).1) = false :=
  ⟨⟨_, rfl, rfl⟩, by decide⟩

theorem witness_RegistersAreWrittenOnlyAsListed : ∃ t, exec .trapGetc (busy 0#16) = .next t := ⟨_, rfl⟩

/-- An instruction that reads no memory, and one that reads the keyboard status. -/
theorem witness_MemoryChangesOnlyByStoresAndStatusReads :
    (∃ t, exec .trapOut (busy 0#16) = .next t) ∧ isStore .trapOut = false ∧ readsMemory .trapOut = false ∧
    (∃ t, exec (.ldr .r0 .r2 0#6) (busy 0#16) = .next t ∧ t.word 0xFE02#16 = 0x0061#16) ∧ isStore (.ldr .r0 .r2 0#6) = false :=
  ⟨⟨_, rfl⟩, rfl, rfl, ⟨_, rfl, rfl⟩, rfl⟩

theorem witness_ConsoleIsWrittenOnlyByTheOutputServices :
    (∃ t, exec .trapGetc (busy 0#16) = .next t) ∧ writesConsole .trapGetc = false ∧
    (∃ t, exec .trapOut (busy 0#16) = .next t) ∧ readsMemory .trapOut = false :=
  ⟨⟨_, rfl⟩, rfl, ⟨_, rfl⟩, rfl⟩

/-- A pointer at an ordinary address, and a load from the keyboard status. -/
theorem witness_LoadsReadTheirAddressingMode :
    BitVec.ofInt 16 ((busy 0#16).pc.toNat + (5#9 : BitVec 9).toInt) ≠ (busy 0#16).cfg.kbsrAddr ∧
    (memRead (busy 0#16) (BitVec.ofInt 16 ((busy 0#16).pc.toNat + (5#9 : BitVec 9).toInt))).1 = (busy 0#16).cfg.kbsrAddr := by decide

theorem witness_StoresWriteOneWordAndNothingElse :
    (busy 0x1025#16).mem.wf = true ∧
    BitVec.ofInt 16 ((busy 0#16).pc.toNat + (5#9 : BitVec 9).toInt) ≠ (busy 0#16).cfg.kbsrAddr := by decide

/-- After reset Z is set: BRz meets its flag, BRnp does not. -/
theorem witness_BranchIsTakenWhenATestBitMeetsItsFlag :
    State.reset.flagZ = true ∧ State.reset.flagN = false ∧ State.reset.flagP = false := by decide

theorem witness_BranchWithNoTestBitIsANopAndWithAllAlwaysBranches :
    (busy 0x0005#16).pc ≠ (busy 0x0005#16).cfg.kbsrAddr ∧
    decode defaultConfig ((busy 0x0005#16).word (busy 0x0005#16).pc) = .br false false false 5#9 ∧
    (busy 0x0FFF#16).pc ≠ (busy 0x0FFF#16).cfg.kbsrAddr ∧ OneFlag (busy 0x0FFF#16).cond ∧
    decode defaultConfig ((busy 0x0FFF#16).word (busy 0x0FFF#16).pc) = .br true true true 0x1FF#9 :=
  ⟨by decide, by decide, by decide, .inr (.inl rfl), by decide⟩

theorem witness_JsrrWritesTheLinkBeforeItReadsTheBase :
    (∃ t, exec (.jsrr .r1) (busy 0#16) = .next t ∧ t.pc = 0x8000#16) ∧
    (∃ t, exec (.jsrr .r7) (busy 0#16) = .next t ∧ t.pc = 0x3000#16) := ⟨⟨_, rfl, rfl⟩, ⟨_, rfl, rfl⟩⟩

/-- JSR #1 at 0x3000 and RET at 0x3002. -/
theorem witness_CallThenReturnComesBackBehindTheCall :
    let s := start [(0x3000, 0x4801#16), (0x3002, 0xC1C0#16)] zeros
    s.pc ≠ s.cfg.kbsrAddr ∧ decode defaultConfig (s.word s.pc) = .jsr 1#11 ∧
    BitVec.ofInt 16 (s.pc.toNat + 1 + (1#11 : BitVec 11).toInt) ≠ s.cfg.kbsrAddr ∧
    decode defaultConfig (s.word (BitVec.ofInt 16 (s.pc.toNat + 1 + (1#11 : BitVec 11).toInt))) = .jmp .r7 := by decide

theorem witness_TrapSavesTheNextAddressInR7AndNothingElse :
    isTrap .trapIn = true ∧ (∃ t, exec .trapIn (busy 0#16) = .next t) ∧ isTrap (.trapUnlisted80 0xFF#8) = true ∧
    (∃ t, exec (.trapUnlisted80 0xFF#8) (busy 0#16) = .next t) := ⟨rfl, ⟨_, rfl⟩, rfl, ⟨_, rfl⟩⟩

/-- A listed character, and a key held down. -/
theorem witness_GetcReadsOneCharacterWithoutEcho :
    NextKey (busy 0xF020#16) 0x61#8 [0x62#8] ∧ NextKey { State.reset with kbdHeld := some 0x61#8 } 0x61#8 [] :=
  ⟨.inl rfl, .inr ⟨rfl, rfl, rfl⟩⟩

theorem witness_InPromptsReadsAndEchoes :
    NextKey (busy 0xF023#16) 0x61#8 [0x62#8] ∧ NextKey { State.reset with kbdHeld := some 0x61#8 } 0x61#8 [] :=
  ⟨.inl rfl, .inr ⟨rfl, rfl, rfl⟩⟩

theorem witness_GetcAndInWaitForAKeyAndAKeyLiftsTheWait : NoKey (start [(0x3000, 0xF020#16)] zeros) := ⟨rfl, rfl⟩

/-! A memory with no zero word: `word` at every address from `lo` up. -/

/-- `n` words `word` from address `lo` up. -/
def filled (word : Word) (lo n : Nat) : Memory := (List.range' lo n).map (fun k => (k, word))

theorem filled_wfFrom {word : Word} (h : word ≠ unlistedWord) : ∀ (n lo : Nat), lo + n ≤ 65536 →
    Memory.wfFrom lo (filled word lo n) = true
  | 0, _, _ => rfl
  | n + 1, lo, hn => by
    have ih := filled_wfFrom h n (lo + 1) (by omega)
    unfold filled at ih ⊢
    rw [List.range'_succ, List.map_cons, Memory.wfFrom, ih]
    simp [h]
    omega

theorem filled_read (word : Word) : ∀ (n lo a : Nat), lo ≤ a → a < lo + n → (filled word lo n).read a = word
  | 0, lo, a, h1, h2 => by omega
  | n + 1, lo, a, h1, h2 => by
    have ih := filled_read word n (lo + 1) a
    unfold filled at ih ⊢
    rw [List.range'_succ, List.map_cons, Memory.read_cons]
    split
    · rfl
    · exact ih (by omega) (by omega)

/-- PUTS in every word, and the key `A` held down and always found ready. -/
def endless : State := { State.reset with mem := filled 0xF022#16 0 65536, kbdHeld := some 0x41#8, pollRun := some .forever }

theorem endless_wf : endless.mem.wf = true := filled_wfFrom (by decide) 65536 0 (by omega)

theorem endless_word (a : Word) : endless.word a = 0xF022#16 := filled_read _ 65536 0 a.toNat (by omega) (by have := a.isLt; omega)

theorem witness_PutsAndPutspHangWhereNoReadCanFindAZeroWord :
    endless.mem.wf = true ∧ (∀ a, a ≠ endless.cfg.kbsrAddr → endless.word a ≠ 0x0000#16) ∧
    endless.kbdHeld = some 0x41#8 ∧ 0x41#8 ≠ 0#8 ∧ (∀ x ∈ endless.kbdIn, x ≠ 0#8) ∧ (∀ d ∈ endless.kbdPolls, d = true) ∧
    pollRunOf endless = .forever :=
  ⟨endless_wf, fun a _ => by rw [endless_word]; decide, rfl, by decide, by simp [endless, State.reset, State.resetOf],
    by simp [endless, State.reset, State.resetOf], rfl⟩

/-- The hang is reached: PUTS over that memory, as an instruction and as the step of that state. -/
theorem endless_hangs :
    exec .trapPuts endless = .fault (.stringUnending (trapEntry endless)) ∧
    step endless = .fault (.stringUnending (trapEntry (endless.setPC 0x3001#16))) := by
  have h : ∀ s : State, s.mem = endless.mem → s.cfg = endless.cfg → s.kbdHeld = endless.kbdHeld → s.kbdIn = [] →
      s.kbdPolls = [] → s.pollRun = endless.pollRun → exec .trapPuts s = .fault (.stringUnending (trapEntry s)) := by
    intro s hm hc hh hk hp hr
    have hz : NoZeroAhead (trapEntry s) :=
      ⟨by rw [trapEntry_mem, hm, endless_wf],
        fun b _ => by
          rw [trapEntry_word]
          unfold State.word
          rw [hm]
          exact (endless_word b).trans_ne (by decide),
        ⟨0x41#8, hh, by decide⟩, by simp [hk], by simp [hp], by simp [pollRunOf, hr, endless]⟩
    show stringService putsChars (trapEntry s) = _
    rcases stringService_cases putsChars (trapEntry s) with ⟨t, ht, _⟩ | ⟨_, e⟩
    · rw [hz.never] at ht
      cases ht
    · exact e
  refine ⟨h endless rfl rfl rfl rfl rfl rfl, ?_⟩
  have hpc : endless.pc ≠ endless.cfg.kbsrAddr := by decide
  show exec (decode endless.cfg (fetch endless).1) (fetch endless).2 = _
  rw [fetch_plain endless hpc, endless_word]
  exact h (endless.setPC 0x3001#16) rfl rfl rfl rfl rfl rfl

/-- A string that ends, and one that never does. -/
theorem witness_PutsAndPutspEndAfterTheirWholeStringOrNeverEnd :
    (busy 0xF022#16).mem.wf = true ∧ after (busy 0xF022#16) (fun t => t.conOutLog) = some [0x41#8] ∧
    endless.mem.wf = true ∧ exec .trapPuts endless = .fault (.stringUnending (trapEntry endless)) :=
  ⟨by decide, by decide, endless_wf, endless_hangs.1⟩

/-- The string of P3, and the empty string. -/
theorem witness_PlainStringsAreWrittenCharacterByCharacter :
    let s := start [(0x3006, 0x0048#16), (0x3007, 0x6569#16)] { zeros with r0 := 0x3006#16 }
    let ws := [0x0048#16, 0x6569#16]
    (∀ k, (h : k < ws.length) → s.word (s.reg .r0 + BitVec.ofNat 16 k) = ws[k] ∧ ws[k] ≠ 0x0000#16) ∧
    s.word (s.reg .r0 + BitVec.ofNat 16 ws.length) = 0x0000#16 ∧
    (∀ k, k ≤ ws.length → s.reg .r0 + BitVec.ofNat 16 k ≠ s.cfg.kbsrAddr) := by
  refine ⟨fun k h => ?_, by decide, fun k h => ?_⟩
  · have : k = 0 ∨ k = 1 := by simp at h; omega
    rcases this with rfl | rfl <;> decide +revert
  · have : k = 0 ∨ k = 1 ∨ k = 2 := by simp at h; omega
    rcases this with rfl | rfl | rfl <;> decide

theorem witness_HaltSignalsTerminationAndOnlyHaltDoes :
    ∃ t, exec .trapHalt (busy 0#16) = .next t ∧ t.signal = .halt := ⟨_, rfl, rfl⟩

/-- The two opcodes, each with ignored bits set. -/
theorem witness_ResAndRtiAreFatalWithNothingButPcChanged :
    decode defaultConfig (memRead (busy 0xDABC#16) (busy 0xDABC#16).pc).1 = .res ∧ decode defaultConfig (memRead (busy 0x8FFF#16) (busy 0x8FFF#16).pc).1 = .rti ∧
    (busy 0xDABC#16).pc ≠ (busy 0xDABC#16).cfg.kbsrAddr := by decide

theorem witness_NothingButResAndRtiRaisesAnException :
    (∃ u, exec .rti (busy 0#16) = .fault (.badInstruction u)) ∧ (∃ u, exec .trapIn State.reset = .fault (.awaitsKey u)) ∧
    (∃ u, exec .trapPuts endless = .fault (.stringUnending u)) ∧ endless.mem.wf = true :=
  ⟨⟨_, rfl⟩, ⟨_, rfl⟩, ⟨_, endless_hangs.1⟩, endless_wf⟩

/-- GETC with a key there; PUTS with a zero word; PUTS with no key held down. -/
theorem witness_EveryOtherInstructionCompletes :
    Instr.trapGetc ≠ .res ∧ Instr.trapGetc ≠ .rti ∧ ¬ NoKey (busy 0xF020#16) ∧
    (0x4000#16 ≠ endless.cfg.kbsrAddr ∧ 0x4000#16 ≠ endless.cfg.kbdrAddr ∧ (busy 0xF022#16).word 0x4000#16 = 0x0000#16) ∧
    (busy 0xF022#16).mem.wf = true ∧ (busy 0xF022#16).kbdHeld = none :=
  ⟨by decide, by decide, fun h => absurd h.1 (by decide), by decide, by decide, rfl⟩

/-- A poll that finds a key and one that finds none. -/
theorem witness_StatusReadPollsAndEveryOtherReadIsPlain :
    (busy 0x1025#16).mem.wf = true ∧ (busy 0#16).cfg.kbsrAddr ≠ (busy 0#16).cfg.kbdrAddr ∧ (kbdPoll (busy 0#16)).1 = some 0x61#8 ∧
    (kbdPoll State.reset).1 = none ∧ 0xFE01#16 ≠ (busy 0#16).cfg.kbsrAddr ∧ 0xFE01#16 ≠ (busy 0#16).cfg.kbdrAddr := by decide

theorem witness_WritesArePlainStoresAtEveryAddress : (busy 0x1025#16).mem.wf = true ∧ 0xFFFF#16 ≠ 0xFE00#16 := by decide

theorem witness_PollAnswersOnlyTheFirstCharacterAndIsFree :
    NextKey (busy 0#16) 0x61#8 [0x62#8] ∧ (busy 0#16).kbdPolls = true :: [false] ∧ (kbdPoll (busy 0#16)).1 = some 0x61#8 ∧
    (busy 0#16).polled.kbdPolls = false :: [] ∧ (kbdPoll (busy 0#16).polled).1 = none ∧
    NextKey endless 0x41#8 [] ∧ endless.kbdPolls = [] ∧ endless.pollRun = some .forever :=
  ⟨.inl rfl, rfl, rfl, rfl, rfl, .inr ⟨rfl, rfl, rfl⟩, rfl, rfl⟩

/-- The two other runs of that statement, for a listed character and for a key held down. -/
theorem witness_PollAnswersOnlyTheFirstCharacterAndIsFree_runs :
    let s := { State.reset with kbdIn := [0x61#8], pollRun := some (PollRun.times 0) }
    let t := { State.reset with kbdHeld := some 0x61#8, pollRun := some (PollRun.times 1) }
    NextKey s 0x61#8 [] ∧ s.kbdPolls = [] ∧ (kbdPoll s).1 = none ∧
    NextKey t 0x61#8 [] ∧ t.kbdPolls = [] ∧ (kbdPoll t).1 = some 0x61#8 :=
  ⟨.inl rfl, rfl, rfl, .inr ⟨rfl, rfl, rfl⟩, rfl, rfl⟩

/-- A fetch at an ordinary address, and one at the keyboard status address, which fetches the poll's answer. -/
theorem witness_StepRunsTheDecodedInstruction :
    decode defaultConfig (memRead { busy 0#16 with pc := 0xFE00#16 } 0xFE00#16).1 = .rti ∧
    (busy 0x1642#16).pc ≠ (busy 0x1642#16).cfg.kbsrAddr ∧
    decode defaultConfig ((busy 0x1642#16).word (busy 0x1642#16).pc) = .addReg .r3 .r1 .r2 := by decide

theorem witness_StepOutcomesAreContinueHaltAndFatalOrTheStepDoesNotComplete :
    (∃ t, step (busy 0xF025#16) = .next t) ∧ (∃ t, step (busy 0x1642#16) = .next t) ∧
    flagSource (decode defaultConfig 0x1642#16) = some .r3 ∧ flagSource (decode defaultConfig 0xF025#16) = none ∧
    (∃ u, step (start [(0x3000, 0xF020#16)] zeros) = .fault (.awaitsKey u)) ∧
    (∃ u, step endless = .fault (.stringUnending u)) ∧ endless.mem.wf = true :=
  ⟨⟨_, rfl⟩, ⟨_, rfl⟩, by decide, by decide, ⟨_, rfl⟩, ⟨_, endless_hangs.2⟩, endless_wf⟩

theorem witness_AStoredWordIsTheInstructionFetchedNext :
    (busy 0x3000#16).mem.wf = true ∧ (busy 0x3000#16).pc ≠ (busy 0x3000#16).cfg.kbsrAddr ∧
    (busy 0x3000#16).pc + 1#16 ≠ (busy 0x3000#16).cfg.kbsrAddr ∧
    decode defaultConfig ((busy 0x3000#16).word (busy 0x3000#16).pc) = .st .r0 0#9 := by decide

theorem witness_InvariantIsKeptByEveryStep : Inv (busy 0x3000#16) ∧ ∃ t, step (busy 0x3000#16) = .next t :=
  ⟨⟨by decide, .inr (.inl rfl), by decide⟩, ⟨_, rfl⟩⟩

theorem witness_InvariantHoldsAtReset : defaultConfig.wf = true ∧ OneFlag defaultConfig.resetCond := ⟨by decide, .inr (.inl rfl)⟩

theorem witness_DeviceStreamsOnlyMoveForward : ∃ t, step (busy 0xF023#16) = .next t ∧ t.kbdIn = [0x62#8] := ⟨_, rfl, rfl⟩

theorem witness_TheConsoleIsNeverRead : ∃ t, step (busy 0xF021#16) = .next t ∧ t.conOutLog = [0x06#8] := ⟨_, rfl, rfl⟩

theorem witness_HaltingIsASignalAndNoLatch : ∃ t, step ((busy 0x1642#16).setSignal .halt) = .next t := ⟨_, rfl⟩

/-- A run for each of the five ends: going on, halted, failed, waiting, hanging. -/
theorem witness_ARunEndsAtTheFirstOutcomeThatIsNotContinue :
    (∃ t, freeRun 1 (busy 0x1642#16) = .running t) ∧ (∃ t, freeRun 2 (busy 0xF025#16) = .halted t) ∧
    (∃ v, freeRun 2 (busy 0xD000#16) = .failed v) ∧ (∃ v, freeRun 2 (start [(0x3000, 0xF020#16)] zeros) = .waiting v) ∧
    (∃ v, freeRun 2 endless = .hanging v) :=
  ⟨⟨_, rfl⟩, ⟨_, rfl⟩, ⟨_, rfl⟩, ⟨_, rfl⟩, ⟨_, by rw [freeRun, endless_hangs.2]⟩⟩

/-- An image with its origin, two words and an odd byte: an address inside it and one behind it; and an image too short. -/
theorem witness_ImageLoadPutsTheWordsFromItsOriginUp :
    let b := [0xFF#8, 0xFE#8, 0x12#8, 0x34#8, 0x56#8, 0x78#8, 0x9A#8]
    State.reset.mem.wf = true ∧ 2 ≤ b.length ∧ (State.reset.loadImage b).mem = [(0xFFFE, 0x1234#16), (0xFFFF, 0x5678#16)] ∧
    [0x30#8].length < 2 := by decide

theorem witness_CanonicalMemoriesThatReadAlikeAreEqual :
    Memory.wf [(5, 1#16)] = true ∧ Memory.wf (Memory.write [(5, 2#16)] 5 1#16) = true ∧
    (Memory.write [(5, 2#16)] 5 1#16) = [(5, 1#16)] := by decide

end Sys2Proof.Tests
end

section
/-! What one instruction does to the state, said once for all thirty: the operations it may use, by the spec's lists, and
the value a flag-setting one ends in. -/

namespace Sys2Proof.Machine

/-- The operations that the meanings are made of keep `P`, each as far as the spec's lists let `i` use it. -/
structure KeptBy (i : Instr) (P : State → Prop) : Prop where
  reg : ∀ u r v, r ∈ writesRegs i → P u → P (u.setReg r v)
  flags : ∀ u v, (flagSource i).isSome = true → P u → P (u.setCond (condOf v))
  jump : ∀ u v, writesPC i = true → P u → P (u.setPC v)
  store : ∀ u a v, isStore i = true → P u → P (memWrite u a v)
  read : ∀ u a, readsMemory i = true → P u → P (memRead u a).2
  key : ∀ u c cs, i = .trapGetc ∨ i = .trapIn → NextKey u c cs → P u → P (u.setKbdIn cs)
  out : ∀ u bs, writesConsole i = true → P u → P (conOut u bs)
  signal : ∀ u g, P u → P (u.setSignal g)

/-- The flags' source is a register the instruction writes (spec/10_state.md R11, R15). -/
theorem mem_writesRegs_of_flagSource {i : Instr} {r : Reg} (h : flagSource i = some r) : r ∈ writesRegs i := by
  cases i <;> cases h <;> simp [writesRegs]

/-- Every TRAP writes R7 (R11, R110). -/
theorem r7_mem_writesRegs_of_isTrap {i : Instr} (h : isTrap i = true) : .r7 ∈ writesRegs i := by
  cases i <;> cases h <;> simp [writesRegs]

namespace KeptBy

variable {i : Instr} {P : State → Prop} {u t : State} (k : KeptBy i P)
include k

theorem defineReg {r : Reg} {v : Word} (hf : flagSource i = some r) (hu : P u) : P (defineReg u r v) :=
  k.flags _ v (by simp [hf]) (k.reg u r v (mem_writesRegs_of_flagSource hf) hu)

theorem trapEntry (hi : isTrap i = true) (hu : P u) : P (trapEntry u) :=
  k.reg u .r7 u.pc (r7_mem_writesRegs_of_isTrap hi) hu

theorem next_of_retContinue (h : retContinue u = .next t) (hu : P u) : P t :=
  retContinue_next.1 h ▸ k.signal u .cont hu

theorem next_of_readChar {echo : Bool} (hi : i = .trapGetc ∨ i = .trapIn) (ho : echo = true → writesConsole i = true)
    (h : readChar echo u = .next t) (hu : P u) : P t := by
  obtain ⟨c, cs, hk, rfl⟩ := readChar_next h
  have hkey : P (u.setKbdIn cs) := k.key u c cs hi hk hu
  have hf : flagSource i = some .r0 := by rcases hi with rfl | rfl <;> rfl
  refine k.signal _ _ (k.defineReg hf ?_)
  split
  · next he => exact k.out _ _ (ho he) hkey
  · exact hkey

theorem next_of_stringService {chars : Word → List Byte} (hr : readsMemory i = true) (ho : writesConsole i = true)
    (h : stringService chars u = .next t) (hu : P u) : P t := by
  obtain ⟨v, hv, rfl⟩ := stringService_next h
  exact k.signal _ _ (stringLoop_preserves (fun s a => k.read s a hr) (fun s bs => k.out s bs ho) chars _ _ u v hu hv)

end KeptBy

/-- What the operations of `i` keep holds in the state that `i` completes with. -/
theorem exec_next_keeps {i : Instr} {P : State → Prop} {s t : State} (k : KeptBy i P) (h : exec i s = .next t) (hs : P s) :
    P t := by
  cases i with
  | br n z p off =>
    refine k.next_of_retContinue h ?_
    split
    · exact k.jump _ _ rfl hs
    · exact hs
  | jmp => exact k.next_of_retContinue h (k.jump _ _ rfl hs)
  | jsr | jsrr => exact k.next_of_retContinue h (k.jump _ _ rfl (k.reg _ .r7 _ (List.mem_singleton.2 rfl) hs))
  | addReg | addImm | andReg | andImm | not | lea => exact k.next_of_retContinue h (k.defineReg rfl hs)
  | ld | ldr => exact k.next_of_retContinue h (k.defineReg rfl (k.read _ _ rfl hs))
  | ldi => exact k.next_of_retContinue h (k.defineReg rfl (k.read _ _ rfl (k.read _ _ rfl hs)))
  | st | str => exact k.next_of_retContinue h (k.store _ _ _ rfl hs)
  | sti => exact k.next_of_retContinue h (k.store _ _ _ rfl (k.read _ _ rfl hs))
  | res | rti => cases h
  | trapGetc => exact k.next_of_readChar (echo := false) (.inl rfl) nofun h (k.trapEntry rfl hs)
  | trapIn => exact k.next_of_readChar (.inr rfl) (fun _ => rfl) h (k.out _ _ rfl (k.trapEntry rfl hs))
  | trapOut => exact k.next_of_retContinue h (k.out _ _ rfl (k.trapEntry rfl hs))
  | trapPuts | trapPutsp => exact k.next_of_stringService rfl rfl h (k.trapEntry rfl hs)
  | trapHalt => exact retHalt_next.1 h ▸ k.signal _ _ (k.trapEntry rfl hs)
  | trapUnlisted00 | trapUnlisted26 | trapUnlisted28 | trapUnlisted30 | trapUnlisted40 | trapUnlisted80 =>
    exact k.next_of_retContinue h (k.trapEntry rfl hs)

/-- A flag-setting instruction ends by defining its register and the flags from one value (spec/10_state.md R15). -/
theorem exec_next_defines {i : Instr} {s t : State} {r : Reg} (hf : flagSource i = some r) (h : exec i s = .next t) :
    ∃ u v, t = (defineReg u r v).setSignal .cont := by
  cases i <;> cases hf
  case trapGetc | trapIn =>
    obtain ⟨c, cs, _, rfl⟩ := readChar_next h
    exact ⟨_, _, rfl⟩
  all_goals exact ⟨_, _, retContinue_next.1 h⟩

/-- The flags after a register is defined report its value's sign (R16). -/
theorem flagsSay_defineReg (u : State) (r : Reg) (v : Word) :
    FlagsSay ((defineReg u r v).setSignal .cont) (((defineReg u r v).setSignal .cont).reg r) := by
  rw [setSignal_reg, reg_defineReg_same]
  exact condOf_sign v

theorem exec_next_flagsSay {i : Instr} {s t : State} {r : Reg} (hf : flagSource i = some r) (h : exec i s = .next t) :
    FlagsSay t (t.reg r) := by
  obtain ⟨u, v, rfl⟩ := exec_next_defines hf h
  exact flagsSay_defineReg u r v

/-- No other instruction writes COND (R15). -/
theorem exec_next_cond {i : Instr} {s t : State} (hf : flagSource i = none) (h : exec i s = .next t) : t.cond = s.cond := by
  refine exec_next_keeps (P := fun u => u.cond = s.cond) ?_ h rfl
  constructor
  case flags => exact fun _ _ hs => absurd hs (by simp [hf])
  all_goals simp +contextual

end Sys2Proof.Machine
end

section
/-! How an instruction ends: the outcomes of spec/00_scope.md R3, the wait and the hang. -/

namespace Sys2Proof.Machine

/-- No word outside the two keyboard words is zero, and with canonical memory a key is held down: where a string service can
go on for ever (log 10). -/
def CanHang (s : State) : Prop :=
  (∀ a, a ≠ s.cfg.kbsrAddr → a ≠ s.cfg.kbdrAddr → s.word a ≠ 0x0000#16) ∧ (s.mem.wf = true → s.kbdHeld ≠ none)

/-- The ways in which instruction `i` can end in state `s`. -/
inductive Ending (i : Instr) (s : State) : StepOutcome → Prop where
  | continues (u : State) (hh : i ≠ .trapHalt) (hr : i ≠ .res) (ht : i ≠ .rti) : Ending i s (.next (u.setSignal .cont))
  | halts (hi : i = .trapHalt) : Ending i s (.next ((trapEntry s).setSignal .halt))
  | fatal (hi : i = .res ∨ i = .rti) : Ending i s (.fault (.badInstruction s))
  | waits (u : State) (hi : i = .trapGetc ∨ i = .trapIn) (hk : NoKey s) : Ending i s (.fault (.awaitsKey u))
  | hangs (hi : i = .trapPuts ∨ i = .trapPutsp) (hc : CanHang s) : Ending i s (.fault (.stringUnending (trapEntry s)))

/-- A character read ends by continuing, or waits on an empty keyboard (log 7). -/
theorem Ending.readChar {i : Instr} {s u : State} (echo : Bool) (hi : i = .trapGetc ∨ i = .trapIn)
    (hin : u.kbdIn = s.kbdIn) (hheld : u.kbdHeld = s.kbdHeld) : Ending i s (readChar echo u) := by
  rcases kbdGet_cases u with ⟨hk, hh, _⟩ | ⟨c, cs, _, hg⟩
  · rw [readChar_waits echo hk hh]
    exact .waits u hi ⟨hin ▸ hk, hheld ▸ hh⟩
  · rw [readChar_reads echo hg]
    rcases hi with rfl | rfl <;> exact .continues _ nofun nofun nofun

/-- A loop that has not ended found no zero word outside the keyboard words, and a key is held down (log 10). -/
theorem canHang_of_stringLoop {chars : Word → List Byte} {a : Word} {s : State}
    (h : stringLoop chars (stringFuel s) a s = none) : CanHang s := by
  refine ⟨fun z h1 h2 hz => ?_, fun hw => (stringLoop_never chars hw h).1⟩
  obtain ⟨t, ht⟩ := stringLoop_ends_at_word chars (a := a) h1 h2 hz
  rw [h] at ht
  cases ht

/-- A string service ends by continuing, or hangs. -/
theorem Ending.stringService {i : Instr} (s : State) (chars : Word → List Byte) (hi : i = .trapPuts ∨ i = .trapPutsp) :
    Ending i s (stringService chars (trapEntry s)) := by
  rcases stringService_cases chars (trapEntry s) with ⟨t, _, e⟩ | ⟨hn, e⟩
  · rw [e]
    rcases hi with rfl | rfl <;> exact .continues _ nofun nofun nofun
  · have hc : CanHang (trapEntry s) := canHang_of_stringLoop hn
    rw [e]
    exact .hangs hi hc

/-- Every instruction ends in one of these ways; none is refused. -/
theorem exec_ending (i : Instr) (s : State) : Ending i s (exec i s) := by
  cases i with
  | res => exact .fatal (.inl rfl)
  | rti => exact .fatal (.inr rfl)
  | trapGetc => exact .readChar false (.inl rfl) rfl rfl
  | trapIn => exact .readChar true (.inr rfl) rfl rfl
  | trapPuts => exact .stringService s putsChars (.inl rfl)
  | trapPutsp => exact .stringService s putspChars (.inr rfl)
  | trapHalt => exact .halts rfl
  | _ => exact .continues _ nofun nofun nofun

/-- An instruction that completes signals halt exactly when it is HALT (spec/00_scope.md R3, spec/44_trap.md R117). -/
theorem exec_next_signal {i : Instr} {s t : State} (h : exec i s = .next t) : t.signal = .halt ↔ i = .trapHalt := by
  have e := h ▸ exec_ending i s
  cases e with
  | continues u hh => exact iff_of_false nofun hh
  | halts hi => exact iff_of_true rfl hi

/-- RES and RTI are fatal and nothing else is (spec/60_exceptions.md R140, R141). -/
theorem exec_fatal_iff {i : Instr} {s : State} :
    (∃ u, exec i s = .fault (.badInstruction u)) ↔ i = .res ∨ i = .rti := by
  constructor
  · rintro ⟨u, h⟩
    have e := h ▸ exec_ending i s
    cases e with
    | fatal hi => exact hi
  · rintro (rfl | rfl) <;> exact ⟨s, rfl⟩

theorem exec_awaitsKey {i : Instr} {s u : State} (h : exec i s = .fault (.awaitsKey u)) :
    (i = .trapGetc ∨ i = .trapIn) ∧ NoKey s := by
  have e := h ▸ exec_ending i s
  cases e with
  | waits _ hi hk => exact ⟨hi, hk⟩

theorem exec_stringUnending {i : Instr} {s u : State} (h : exec i s = .fault (.stringUnending u)) :
    (i = .trapPuts ∨ i = .trapPutsp) ∧ CanHang s := by
  have e := h ▸ exec_ending i s
  cases e with
  | hangs hi hc => exact ⟨hi, hc⟩

theorem exec_not_refused (i : Instr) (s : State) (r : Refusal) : exec i s ≠ .refused r := by
  intro h
  have e := h ▸ exec_ending i s
  cases e

end Sys2Proof.Machine
end

section
/-! The step: its sequence (spec/00_scope.md R3), and what the state after the fetch says of the state before it. -/

namespace Sys2Proof.Machine

/-- Fetch, increment, decode, execute (R3, spec/10_state.md R13). -/
theorem step_eq (s : State) :
    step s = exec (decode s.cfg (memRead s s.pc).1) ((memRead s s.pc).2.setPC (s.pc + 1#16)) := rfl

theorem step_plain {s : State} (h : s.pc ≠ s.cfg.kbsrAddr) :
    step s = exec (decode s.cfg (s.word s.pc)) (s.setPC (s.pc + 1#16)) := by
  rw [step_eq, memRead_plain s h]

/-- A read keeps canonical memory and the key held down, and changes the two keyboard words only. -/
theorem canHang_of_memRead {s : State} {a : Word} (h : CanHang (memRead s a).2) : CanHang s := by
  obtain ⟨hz, hh⟩ := h
  rw [memRead_cfg] at hz
  rw [memRead_kbdHeld] at hh
  exact ⟨fun b h1 h2 => word_memRead s a h1 h2 ▸ hz b h1 h2, fun hw => hh (memRead_wf s a hw)⟩

/-- Settles O40: `step_eq`, and at an ordinary address `step_plain`. -/
theorem stepRunsTheDecodedInstruction : Obligations.StepRunsTheDecodedInstruction := by
  rintro s i
  exact ⟨fun hi => hi ▸ step_eq s, fun hpc hi => hi ▸ step_plain hpc⟩

/-- Settles O41: the ways the decoded instruction ends in the state after the fetch, said of the state before it. -/
theorem stepOutcomesAreContinueHaltAndFatalOrTheStepDoesNotComplete :
    Obligations.StepOutcomesAreContinueHaltAndFatalOrTheStepDoesNotComplete := by
  intro s
  rw [step_eq s]
  refine ⟨rfl, fun t => exec_next_signal, exec_fatal_iff, fun u => exec_awaitsKey, fun u h => ?_, exec_not_refused _ _,
    fun t h => ⟨fun r hf => exec_next_flagsSay hf h, fun hf => ?_⟩⟩
  · obtain ⟨hi, hc⟩ := exec_stringUnending h
    exact ⟨hi, canHang_of_memRead hc⟩
  · rw [exec_next_cond hf h, setPC_cond, memRead_cond]

end Sys2Proof.Machine
end

section
/-! The two device streams: who writes the console and who consumes keys (spec/10_state.md R21, R22). -/

namespace Sys2Proof.Machine

theorem exec_next_conOutLog {i : Instr} {s t : State} (hi : writesConsole i = false) (h : exec i s = .next t) :
    t.conOutLog = s.conOutLog := by
  refine exec_next_keeps (P := fun u => u.conOutLog = s.conOutLog) ?_ h rfl
  constructor
  case out => exact fun _ _ ho => absurd ho (by simp [hi])
  all_goals simp +contextual

theorem exec_next_kbdIn {i : Instr} {s t : State} (hr : readsMemory i = false) (hg : i ≠ .trapGetc) (hn : i ≠ .trapIn)
    (h : exec i s = .next t) : t.kbdIn = s.kbdIn := by
  refine exec_next_keeps (P := fun u => u.kbdIn = s.kbdIn) ?_ h rfl
  constructor
  case read => exact fun _ _ hm => absurd hm (by simp [hr])
  case key => exact fun _ _ _ hk => absurd hk (by simp [hg, hn])
  all_goals simp +contextual

/-- Settles O14: the console by `writesConsole`, the keys by `readsMemory` and the two character reads. -/
theorem consoleIsWrittenOnlyByTheOutputServices : Obligations.ConsoleIsWrittenOnlyByTheOutputServices :=
  fun _ _ _ h => ⟨fun hi => exec_next_conOutLog hi h, fun hr hg hn => exec_next_kbdIn hr hg hn h⟩

end Sys2Proof.Machine
end

section
/-! Sign extension of a field of any width (spec/00_scope.md R9). -/

namespace Sys2Proof.Machine

variable {N : Nat} (v : Word)

theorem getLsbD_field_zero {i : Nat} (h : i < N) : (field v 0 N).getLsbD i = v.getLsbD i := by
  simp [field, h]

theorem field_zero_toNat : (field v 0 N).toNat = v.toNat % 2 ^ N := by
  simp [field]

theorem field_zero_msb (h : 0 < N) : (field v 0 N).msb = v.getLsbD (N - 1) := by
  rw [BitVec.msb_eq_getLsbD_last, getLsbD_field_zero v (by omega)]

/-- The bits of the field are kept. -/
theorem getLsbD_sext_field_low (hN : N ≤ 16) {i : Nat} (h : i < N) : (sext (field v 0 N)).getLsbD i = v.getLsbD i := by
  rw [sext, BitVec.getLsbD_signExtend, if_pos h, getLsbD_field_zero v h, decide_eq_true (by omega), Bool.true_and]

/-- The bits above the field are copies of its top bit. -/
theorem getLsbD_sext_field_high (h0 : 0 < N) {i : Nat} (h : N ≤ i) (hi : i < 16) :
    (sext (field v 0 N)).getLsbD i = v.getLsbD (N - 1) := by
  rw [sext, BitVec.getLsbD_signExtend, if_neg (by omega), field_zero_msb v h0, decide_eq_true hi, Bool.true_and]

/-- The value of the field in two's complement, as a word. -/
theorem sext_field_toNat (h0 : 0 < N) (hN : N ≤ 16) : (sext (field v 0 N)).toNat =
    if v.getLsbD (N - 1) = true then v.toNat % 2 ^ N + (65536 - 2 ^ N) else v.toNat % 2 ^ N := by
  have hlt : v.toNat % 2 ^ N < 2 ^ 16 :=
    (Nat.mod_lt _ (Nat.two_pow_pos N)).trans_le (Nat.pow_le_pow_right (by omega) hN)
  rw [sext, BitVec.toNat_signExtend, field_zero_msb v h0, BitVec.toNat_setWidth, field_zero_toNat, Nat.mod_eq_of_lt hlt]
  split <;> rfl

/-- Settles O7: the three facts hold for every width from 1 to 16, so for the four of R9. -/
theorem signExtensionIsTwosComplementWidening : Obligations.SignExtensionIsTwosComplementWidening := by
  intro N hN v
  have hw : 0 < N ∧ N ≤ 16 := by
    simp only [List.mem_cons, List.not_mem_nil, or_false] at hN
    omega
  obtain ⟨h0, h16⟩ := hw
  exact ⟨sext_field_toNat v h0 h16, fun i h hi => getLsbD_sext_field_high v h0 h hi,
    fun i h => getLsbD_sext_field_low v h16 h⟩

end Sys2Proof.Machine
end

section
/-! The register file, PC, the invariant and the device streams: what every instruction, and so every step, keeps of them
(spec/10_state.md R10 to R12, R15, R21, R22). -/

namespace Sys2Proof.Machine

/-- Settles O8: a write is read back and leaves the other registers; the selector has an inverse on both sides. -/
theorem registerFileReadsWhatWasWritten : Obligations.RegisterFileReadsWhatWasWritten := by
  refine ⟨fun s r v => ⟨reg_setReg_same s r v, fun q hq => ?_, rfl, rfl, fun _ => rfl, ⟨rfl, rfl, rfl, rfl, rfl⟩, rfl⟩,
    fun b c h => ?_, fun r => ⟨r.bits, Reg.ofBits_bits r, rfl⟩⟩
  · exact reg_setReg_other s v (by simpa using hq)
  · simpa using congrArg Reg.bits h

theorem exec_next_sameRegsBut {i : Instr} {s t : State} (h : exec i s = .next t) : SameRegsBut (writesRegs i) s t := by
  refine exec_next_keeps (P := SameRegsBut (writesRegs i) s) ?_ h (fun _ _ => rfl)
  constructor
  case reg =>
    intro u r v hr hu q hq
    rw [reg_setReg_other u v (ne_of_mem_of_not_mem hr hq).symm, hu q hq]
  all_goals simp +contextual [SameRegsBut]

theorem exec_next_cfg {i : Instr} {s t : State} (h : exec i s = .next t) : t.cfg = s.cfg := by
  refine exec_next_keeps (P := fun u => u.cfg = s.cfg) ?_ h rfl
  constructor
  all_goals simp

/-- Settles O12: only `setReg` writes a register, and the meanings use it on the registers of the table. -/
theorem registersAreWrittenOnlyAsListed : Obligations.RegistersAreWrittenOnlyAsListed :=
  fun _ _ _ h => ⟨exec_next_sameRegsBut h, exec_next_cfg h⟩

theorem exec_next_pc {i : Instr} {s t : State} (hi : writesPC i = false) (h : exec i s = .next t) : t.pc = s.pc := by
  refine exec_next_keeps (P := fun u => u.pc = s.pc) ?_ h rfl
  constructor
  case jump => exact fun _ _ hj => absurd hj (by simp [hi])
  all_goals simp

/-- Settles O11: the fetch leaves PC one further, and no instruction but a transfer writes it. -/
theorem pcAdvancesByOneUnlessATransferWritesIt : Obligations.PcAdvancesByOneUnlessATransferWritesIt := by
  intro s t h hi
  rw [step_eq] at h
  rw [exec_next_pc hi h, setPC_pc, BitVec.toNat_add]
  rfl

/-- Every operation keeps the invariant: the two that write memory its canonical form, the flag computation one flag. -/
theorem keptBy_inv (i : Instr) : KeptBy i Inv where
  reg _ _ _ _ h := h
  jump _ _ _ h := h
  key _ _ _ _ _ h := h
  out _ _ _ h := h
  signal _ _ h := h
  flags _ v _ := fun ⟨hm, _, hc⟩ => ⟨hm, condOf_cases v, hc⟩
  store u a v _ := fun ⟨hm, hf, hc⟩ => ⟨memWrite_wf u a v hm, hf, hc⟩
  read u a _ := fun ⟨hm, hf, hc⟩ => ⟨memRead_wf u a hm, by simpa using hf, by simpa using hc⟩

/-- Settles O43: the fetch keeps the invariant, and then every operation of the instruction does. -/
theorem invariantIsKeptByEveryStep : Obligations.InvariantIsKeptByEveryStep := by
  rintro s t ⟨hm, hf, hc⟩ h
  exact exec_next_keeps (keptBy_inv _) h ⟨fetch_wf s hm, by simpa using hf, by simpa using hc⟩

/-- From `s` to `t` the console has only been appended to and KbdIn only consumed from the front; the key held down and the
parameters are the same. -/
def StreamsForward (s t : State) : Prop :=
  s.conOutLog <+: t.conOutLog ∧ t.kbdIn <:+ s.kbdIn ∧ t.kbdHeld = s.kbdHeld ∧ t.cfg = s.cfg

theorem StreamsForward.refl (s : State) : StreamsForward s s := ⟨⟨[], List.append_nil _⟩, List.suffix_rfl, rfl, rfl⟩

theorem kbdIn_suffix_of_nextKey {s : State} {c : Byte} {cs : List Byte} (h : NextKey s c cs) : cs <:+ s.kbdIn := by
  rcases h with h | ⟨h, _, rfl⟩
  · exact h ▸ List.suffix_cons c cs
  · exact h ▸ List.suffix_rfl

theorem memRead_kbdIn_suffix (s : State) (a : Word) : (memRead s a).2.kbdIn <:+ s.kbdIn := by
  rcases memRead_kbdIn s a with h | ⟨c, h⟩
  · exact h ▸ List.suffix_rfl
  · exact h ▸ List.suffix_cons c _

theorem StreamsForward.memRead {s u : State} (h : StreamsForward s u) (a : Word) : StreamsForward s (memRead u a).2 := by
  obtain ⟨hout, hin, hheld, hcfg⟩ := h
  exact ⟨by simpa using hout, (memRead_kbdIn_suffix u a).trans hin, by simpa using hheld, by simpa using hcfg⟩

/-- Only `conOut` touches the console and only a character read or a status read touches KbdIn. -/
theorem keptBy_streamsForward (i : Instr) (s : State) : KeptBy i (StreamsForward s) where
  reg _ _ _ _ h := h
  flags _ _ _ h := h
  jump _ _ _ h := h
  store _ _ _ _ h := h
  signal _ _ h := h
  read _ a _ h := h.memRead a
  key _ _ _ _ hk := fun ⟨hout, hin, hrest⟩ => ⟨hout, (kbdIn_suffix_of_nextKey hk).trans hin, hrest⟩
  out _ bs _ := fun ⟨hout, hrest⟩ => ⟨hout.trans ⟨bs, rfl⟩, hrest⟩

/-- Settles O46: the fetch moves the streams forward, and then every operation of the instruction does. -/
theorem deviceStreamsOnlyMoveForward : Obligations.DeviceStreamsOnlyMoveForward := by
  intro s t h
  have hfetch : StreamsForward s (fetch s).2 := (StreamsForward.refl s).memRead s.pc
  obtain ⟨⟨bs, hout⟩, ⟨used, hin⟩, hheld, hcfg⟩ := exec_next_keeps (keptBy_streamsForward _ s) h hfetch
  exact ⟨⟨bs, hout.symm⟩, ⟨used, hin.symm⟩, hheld, hcfg⟩

end Sys2Proof.Machine
end

section
/-! The three fields that no meaning reads, but for BR's test of COND: COND, the console and the signal (spec/10_state.md
R15, R22, log 8). -/

namespace Sys2Proof.Machine

/-- `s` with COND `c`, the bytes `old` before what the console has received, and the signal `g`. -/
def State.withUnread (s : State) (c : BitVec 3) (old : List Byte) (g : Signal) : State :=
  { s with cond := c, conOutLog := old ++ s.conOutLog, signal := g }

variable (s : State) (c : BitVec 3) (old : List Byte) (g : Signal)

theorem setCond_eq_withUnread : s.setCond c = s.withUnread c [] s.signal := rfl

theorem conOut_withUnread (bs : List Byte) : conOut (s.withUnread c old g) bs = (conOut s bs).withUnread c old g := by
  simp [conOut, State.withUnread]

theorem kbdGet_withUnread :
    kbdGet (s.withUnread c old g) = (kbdGet s).map (fun p => (p.1, p.2.withUnread c old g)) := by
  rcases kbdGet_cases s with ⟨hk, hh, h⟩ | ⟨d, cs, hk | ⟨hk, hh, rfl⟩, h⟩ <;> rw [h]
  · exact kbdGet_empty _ hk hh
  · exact kbdGet_char _ hk
  · exact kbdGet_held _ hk hh

theorem kbdPoll_withUnread :
    kbdPoll (s.withUnread c old g) = ((kbdPoll s).1, (kbdPoll s).2.withUnread c old g) := by
  have hr : pollReady (s.withUnread c old g) = pollReady s := rfl
  unfold kbdPoll
  rw [kbdGet_withUnread, hr]
  cases kbdGet s with
  | none => rfl
  | some p => cases pollReady s <;> rfl

theorem statusRead_withUnread : statusRead (s.withUnread c old g) = (statusRead s).withUnread c old g := by
  unfold statusRead
  rw [kbdPoll_withUnread]
  rcases kbdPoll s with ⟨_ | d, t⟩ <;> rfl

theorem memRead_withUnread (a : Word) :
    memRead (s.withUnread c old g) a = ((memRead s a).1, (memRead s a).2.withUnread c old g) := by
  have hcfg : (s.withUnread c old g).cfg = s.cfg := rfl
  unfold memRead
  rw [statusRead_withUnread, hcfg]
  split <;> rfl

theorem stringLoop_withUnread (chars : Word → List Byte) : ∀ (n : Nat) (a : Word) (s : State),
    stringLoop chars n a (s.withUnread c old g) = (stringLoop chars n a s).map (·.withUnread c old g)
  | 0, _, _ => rfl
  | n + 1, a, s => by
    by_cases hz : (memRead s a).1 = 0x0000#16
    · rw [stringLoop_end chars n hz, stringLoop_end chars n (by rwa [memRead_withUnread]), memRead_withUnread]
      rfl
    · rw [stringLoop_more chars n hz, stringLoop_more chars n (by rwa [memRead_withUnread]), memRead_withUnread,
        conOut_withUnread]
      exact stringLoop_withUnread chars n _ _

variable {s} {t : State} {i : Instr}

theorem stringService_withUnread {chars : Word → List Byte} (h : stringService chars s = .next t) :
    stringService chars (s.withUnread c old g) = .next (t.withUnread c old t.signal) := by
  obtain ⟨u, hu, rfl⟩ := stringService_next h
  have hloop : stringLoop chars (stringFuel s) (s.reg .r0) (s.withUnread c old g) = some (u.withUnread c old g) := by
    rw [stringLoop_withUnread, hu]
    rfl
  exact stringService_ends hloop

theorem readChar_withUnread {echo : Bool} (h : readChar echo s = .next t) :
    readChar echo (s.withUnread c old g) = .next (t.withUnread t.cond old t.signal) := by
  rcases kbdGet_cases s with ⟨hk, hh, _⟩ | ⟨d, cs, _, hg⟩
  · rw [readChar_waits echo hk hh] at h
    cases h
  · rw [readChar_reads echo hg] at h
    cases h
    rw [readChar_reads echo (by rw [kbdGet_withUnread, hg]; rfl)]
    cases echo
    · rfl
    · rw [if_pos rfl, if_pos rfl, conOut_withUnread]
      rfl

theorem loadFrom_withUnread (dr : Reg) (ea : Word) :
    loadFrom (s.withUnread c old g) dr ea = (loadFrom s dr ea).withUnread (loadFrom s dr ea).cond old g := by
  unfold loadFrom
  rw [memRead_withUnread]
  rfl

theorem indirect_withUnread (off : BitVec 9) :
    indirect (s.withUnread c old g) off = ((indirect s off).1, (indirect s off).2.withUnread c old g) :=
  memRead_withUnread s c old g (pcRelative s off)

/-- An instruction other than BR completes alike whatever COND, the console and the signal held: COND is then its own flags
or as it was, the bytes before the console's are still there, the signal is its own. BR does so with COND as it is. -/
theorem exec_withUnread (hbr : isBr i = true → c = s.cond) (h : exec i s = .next t) :
    exec i (s.withUnread c old g) =
      .next (t.withUnread (if (flagSource i).isSome then t.cond else c) old t.signal) := by
  cases i with
  | br n z p off =>
    cases h
    rw [hbr rfl]
    show retContinue (if branchTaken n z p s.cond then _ else _) = _
    split <;> rfl
  | jmp | jsr | jsrr | addReg | addImm | andReg | andImm | not | lea | st | str | trapHalt => cases h; rfl
  | trapUnlisted00 | trapUnlisted26 | trapUnlisted28 | trapUnlisted30 | trapUnlisted40 | trapUnlisted80 => cases h; rfl
  | res | rti => cases h
  | ld | ldr =>
    cases h
    exact congrArg retContinue (loadFrom_withUnread c old g _ _)
  | ldi dr off =>
    cases h
    show retContinue (loadFrom (indirect (s.withUnread c old g) off).2 dr (indirect (s.withUnread c old g) off).1) = _
    rw [indirect_withUnread, loadFrom_withUnread]
    rfl
  | sti sr off =>
    cases h
    show retContinue (memWrite (indirect (s.withUnread c old g) off).2 (indirect (s.withUnread c old g) off).1 _) = _
    rw [indirect_withUnread]
    rfl
  | trapOut =>
    cases h
    exact congrArg retContinue (conOut_withUnread (trapEntry s) c old g _)
  | trapGetc => exact readChar_withUnread (echo := false) c old g h
  | trapIn =>
    show readChar true (conOut ((trapEntry s).withUnread c old g) s.cfg.inPrompt) = _
    rw [conOut_withUnread]
    exact readChar_withUnread c old g h
  | trapPuts | trapPutsp => exact stringService_withUnread c old g h

/-- The one flag of a flag-setting instruction is its own; any other leaves COND (R15). -/
theorem exec_next_oneFlag {r : Reg} (hf : flagSource i = some r) (h : exec i s = .next t) : OneFlag t.cond := by
  obtain ⟨u, v, rfl⟩ := exec_next_defines hf h
  exact condOf_cases v

/-- Settles O10: who writes COND by `flagSource`, and that only BR reads it by `exec_withUnread`. -/
theorem condIsWrittenAndReadOnlyAsListed : Obligations.CondIsWrittenAndReadOnlyAsListed := by
  refine ⟨fun i s t h => ⟨fun r hf => ⟨exec_next_oneFlag hf h, exec_next_flagsSay hf h⟩, fun hf => exec_next_cond hf h,
    fun hs => ?_⟩, fun i s t c hbr h => ?_⟩
  · cases hf : flagSource i with
    | some r => exact exec_next_oneFlag hf h
    | none => exact exec_next_cond hf h ▸ hs
  · rw [setCond_eq_withUnread, exec_withUnread c [] s.signal (by simp [hbr]) h]
    split <;> rfl

theorem exec_withUnread_sameCond (h : exec i s = .next t) :
    exec i (s.withUnread s.cond old g) = .next (t.withUnread t.cond old t.signal) := by
  have hex := exec_withUnread s.cond old g (fun _ => rfl) h
  cases hf : flagSource i with
  | some r => simpa [hf] using hex
  | none => simpa [hf, exec_next_cond hf h] using hex

/-- A step that completes does so whatever the console and the signal held. -/
theorem step_withUnread (h : step s = .next t) :
    step (s.withUnread s.cond old g) = .next (t.withUnread t.cond old t.signal) := by
  rw [step_eq] at h ⊢
  have hex := exec_withUnread_sameCond old g h
  rw [setPC_cond, memRead_cond] at hex
  rw [memRead_withUnread]
  exact hex

/-- Settles O47: `step_withUnread` with the signal as it is. -/
theorem theConsoleIsNeverRead : Obligations.TheConsoleIsNeverRead :=
  fun s _ old h => step_withUnread old s.signal h

end Sys2Proof.Machine
end

section
/-! A poll and the two character reads, by whether a character is there (spec/10_state.md R21, spec/44_trap.md R112, R115). -/

namespace Sys2Proof.Machine

variable {s : State} {c : Byte} {cs : List Byte}

theorem kbdGet_nextKey (h : NextKey s c cs) : kbdGet s = some (c, s.setKbdIn cs) := by
  rcases h with h | ⟨h, hh, rfl⟩
  · exact kbdGet_char s h
  · exact kbdGet_held s h hh

/-- With a character there, the free answer alone decides a poll (R21, D24). -/
theorem kbdPoll_nextKey (h : NextKey s c cs) :
    kbdPoll s = if pollReady s then (some c, s.polled.setKbdIn cs) else (none, s.polled) := by
  rw [kbdPoll, kbdGet_nextKey h]
  rfl

theorem pollRunOf_given {r : PollRun} (h : s.pollRun = some r) : pollRunOf s = r := by simp [pollRunOf, h]

/-- Without a listed answer the first answer of a fixed run decides, and the rest of the run stands after it. -/
theorem kbdPoll_run (h : NextKey s c cs) (hp : s.kbdPolls = []) {r : PollRun} (hr : s.pollRun = some r) :
    (kbdPoll s).1 = (if runReady r then some c else none) ∧ (kbdPoll s).2.pollRun = runRest r := by
  have hnext : nextRun s = runRest r := by simp [nextRun, hp, pollRunOf_given hr]
  rw [kbdPoll_nextKey h, pollReady_run s hp, pollRunOf_given hr]
  split <;> exact ⟨rfl, hnext⟩

variable (s) in
/-- A poll touches the keyboard's stream and its answers only. -/
theorem kbdPoll_frame : (kbdPoll s).2.kbdHeld = s.kbdHeld ∧ (kbdPoll s).2.pc = s.pc ∧ (kbdPoll s).2.cond = s.cond ∧
    (kbdPoll s).2.cfg = s.cfg ∧ (kbdPoll s).2.regs = s.regs ∧ (kbdPoll s).2.mem = s.mem ∧
    (kbdPoll s).2.conOutLog = s.conOutLog := by
  rcases kbdPoll_cases s with ⟨t, rfl | rfl, h⟩ | ⟨c, cs, _, h⟩ <;> rw [h] <;>
    exact ⟨rfl, rfl, rfl, rfl, rfl, rfl, rfl⟩

theorem kbdPoll_answers (h : (kbdPoll s).1 = some c) : NextKey s c (kbdPoll s).2.kbdIn := by
  rcases kbdPoll_cases s with ⟨t, _, hp⟩ | ⟨d, cs, hk, hp⟩ <;> rw [hp] at h ⊢
  · cases h
  · cases h
    exact hk

theorem kbdPoll_none_kbdIn (h : (kbdPoll s).1 = none) : (kbdPoll s).2.kbdIn = s.kbdIn := by
  rcases kbdPoll_cases s with ⟨t, rfl | rfl, hp⟩ | ⟨c, cs, _, hp⟩ <;> rw [hp] at h ⊢
  · rfl
  · cases h

/-- Settles O39: what the two answers consume, what no poll touches, and what decides the answer. -/
theorem pollAnswersOnlyTheFirstCharacterAndIsFree : Obligations.PollAnswersOnlyTheFirstCharacterAndIsFree := by
  intro s
  obtain ⟨hheld, hpc, hcond, hcfg, hregs, hmem, hout⟩ := kbdPoll_frame s
  have hready : ∀ c cs ds, NextKey s c cs → s.kbdPolls = true :: ds → (kbdPoll s).1 = some c := by
    intro c cs ds h hp
    rw [kbdPoll_nextKey h, pollReady_given s hp, if_pos rfl]
  exact ⟨fun _ => kbdPoll_answers, kbdPoll_none_kbdIn, hheld, hpc, hcond, hcfg,
    fun q _ => congrArg (·.get q) hregs, fun a => congrArg (·.read a.toNat) hmem, hout, hready,
    fun _ hp => kbdPoll_notReady s (pollReady_given s hp),
    fun _ _ h hp => ⟨kbdPoll_run h hp, fun _ => kbdPoll_run h hp, kbdPoll_run h hp⟩⟩

/-- A character read with a character there leaves it in R0 and the rest in KbdIn (R111). -/
theorem readChar_nextKey (echo : Bool) (h : NextKey s c cs) :
    ∃ t, readChar echo s = .next t ∧ (t.reg .r0).toNat = c.toNat ∧ t.kbdIn = cs := by
  refine ⟨_, readChar_reads echo (kbdGet_nextKey h), ?_, ?_⟩
  · rw [setSignal_reg, reg_defineReg_same, zext16_toNat]
  · cases echo <;> rfl

/-- Settles O28: an empty keyboard makes the character read wait, and one typed character is the next key. -/
theorem getcAndInWaitForAKeyAndAKeyLiftsTheWait : Obligations.GetcAndInWaitForAKeyAndAKeyLiftsTheWait := by
  rintro s ⟨hk, hh⟩
  refine ⟨readChar_waits (s := trapEntry s) false hk hh, readChar_waits true hk hh, fun c => ?_⟩
  have hkey : (s.hostType c).kbdIn = [c] := by simp [State.hostType, hk]
  exact ⟨readChar_nextKey (s := trapEntry (s.hostType c)) false (.inl hkey), readChar_nextKey true (.inl hkey)⟩

end Sys2Proof.Machine
end

section
/-! Stores and what else writes memory (spec/20_memory.md R33, R36, R38), and the stored word that is fetched next (R44). -/

namespace Sys2Proof

/-- Below every entry a store puts its own entry in front. -/
theorem Memory.write_eq_cons : ∀ {a : Nat} {m : Memory} (v : Word), Memory.wfFrom (a + 1) m = true →
    m.write a v = Memory.cons a v m
  | _, [], _, _ => rfl
  | _, (_, _) :: _, _, h => by
    simp only [Memory.wfFrom, Bool.and_eq_true, decide_eq_true_eq] at h
    rw [Memory.write, if_pos (by omega)]

/-- A store at an entry just put in replaces it, also where the entry is left out as `unlistedWord`. -/
theorem Memory.write_cons {a : Nat} {m : Memory} (v v' : Word) (h : Memory.wfFrom (a + 1) m = true) :
    (Memory.cons a v m).write a v' = Memory.cons a v' m := by
  by_cases hv : v = Machine.unlistedWord
  · rw [Memory.cons, if_pos hv, Memory.write_eq_cons v' h]
  · rw [Memory.cons, if_neg hv, Memory.write, if_neg (Nat.lt_irrefl a), if_pos rfl]

/-- Of two stores at one address the later is all that is left. -/
theorem Memory.write_write : ∀ {lo : Nat} {m : Memory} (a : Nat) (v v' : Word), Memory.wfFrom lo m = true →
    (m.write a v).write a v' = m.write a v'
  | _, [], a, v, v', _ => Memory.write_cons v v' rfl
  | _, (k, w) :: m, a, v, v', h => by
    have h' := h
    simp only [Memory.wfFrom, Bool.and_eq_true, decide_eq_true_eq] at h'
    obtain ⟨⟨⟨_, hk⟩, hw⟩, hm⟩ := h'
    rcases Nat.lt_trichotomy a k with hlt | rfl | hgt
    · have hrest : Memory.wfFrom (a + 1) ((k, w) :: m) = true := by simpa [Memory.wfFrom, hk, hw, hm] using hlt
      rw [Memory.write_eq_cons v hrest, Memory.write_cons v v' hrest, Memory.write_eq_cons v' hrest]
    · simp only [Memory.write, lt_irrefl, if_false, if_true]
      exact Memory.write_cons v v' hm
    · have hna : ¬ a < k := by omega
      have hne : a ≠ k := by omega
      simp only [Memory.write, if_neg hna, if_neg hne, Memory.write_write a v v' hm]

end Sys2Proof

namespace Sys2Proof.Machine

theorem memWrite_memWrite {s : State} (a v v' : Word) (h : s.mem.wf = true) :
    memWrite (memWrite s a v) a v' = memWrite s a v' :=
  congrArg (fun m => { s with mem := m }) (Memory.write_write a.toNat v v' h)

/-- Settles O38: the word stored, the other words and the second store by the laws of `memWrite`; it touches memory only. -/
theorem writesArePlainStoresAtEveryAddress : Obligations.WritesArePlainStoresAtEveryAddress :=
  fun s a v h => ⟨word_memWrite_same s a v h, fun _ hb => word_memWrite_other s v hb, fun _ _ => rfl, rfl, rfl,
    ⟨rfl, rfl, rfl, rfl, rfl⟩, rfl, fun v' => memWrite_memWrite a v v' h⟩

/-- Without a store and a read, an instruction leaves memory and the poll answers. -/
theorem exec_next_memory_polls {i : Instr} {s t : State} (hs : isStore i = false) (hr : readsMemory i = false)
    (h : exec i s = .next t) :
    t.mem = s.mem ∧ t.kbdPolls = s.kbdPolls ∧ t.pollRun = s.pollRun ∧ t.pollCount = s.pollCount := by
  refine exec_next_keeps (P := fun u => u.mem = s.mem ∧ u.kbdPolls = s.kbdPolls ∧ u.pollRun = s.pollRun ∧
    u.pollCount = s.pollCount) ?_ h ⟨rfl, rfl, rfl, rfl⟩
  constructor
  case store => exact fun _ _ _ hst => absurd hst (by simp [hs])
  case read => exact fun _ _ hrd => absurd hrd (by simp [hr])
  all_goals simp +contextual

/-- Every word but the two keyboard words reads as before, and the two are at the same addresses. -/
def SameButKeyboardWords (s t : State) : Prop :=
  t.cfg = s.cfg ∧ ∀ a, a ≠ s.cfg.kbsrAddr → a ≠ s.cfg.kbdrAddr → t.word a = s.word a

theorem SameButKeyboardWords.memRead {s u : State} (h : SameButKeyboardWords s u) (a : Word) :
    SameButKeyboardWords s (memRead u a).2 := by
  obtain ⟨hcfg, hw⟩ := h
  exact ⟨by simpa using hcfg, fun b h1 h2 => (word_memRead u a (hcfg ▸ h1) (hcfg ▸ h2)).trans (hw b h1 h2)⟩

/-- Without a store, an instruction leaves every word but the two keyboard words. -/
theorem exec_next_sameButKeyboardWords {i : Instr} {s t : State} (hs : isStore i = false) (h : exec i s = .next t) :
    SameButKeyboardWords s t := by
  refine exec_next_keeps (P := SameButKeyboardWords s) ?_ h ⟨rfl, fun _ _ _ => rfl⟩
  constructor
  case store => exact fun _ _ _ hst => absurd hst (by simp [hs])
  case read => exact fun _ a _ hu => hu.memRead a
  all_goals simp +contextual [SameButKeyboardWords]

/-- Settles O13: only `memWrite` and a status read write memory, and only a status read uses up a poll answer. -/
theorem memoryChangesOnlyByStoresAndStatusReads : Obligations.MemoryChangesOnlyByStoresAndStatusReads := by
  intro i s t h hs
  refine ⟨fun hr => ?_, (exec_next_sameButKeyboardWords hs h).2⟩
  obtain ⟨hmem, hpolls⟩ := exec_next_memory_polls hs hr h
  exact ⟨fun a => congrArg (·.read a.toNat) hmem, hpolls⟩

/-- An offset of 0 addresses the word at PC (R94). -/
theorem pcRelative_zero {n : Nat} (s : State) : pcRelative s 0#n = s.pc := by
  simp [pcRelative_eq]

theorem exec_st (sr : Reg) (off : BitVec 9) (s : State) :
    exec (.st sr off) s = retContinue (memWrite s (pcRelative s off) (s.reg sr)) := rfl

/-- A step that runs ST with offset 0 stores at the next address (spec/43_store.md R100). -/
theorem step_st_zero {s : State} {sr : Reg} (hpc : s.pc ≠ s.cfg.kbsrAddr) (hi : decode s.cfg (s.word s.pc) = .st sr 0#9) :
    step s = .next ((memWrite (s.setPC (s.pc + 1#16)) (s.pc + 1#16) (s.reg sr)).setSignal .cont) := by
  rw [step_plain hpc, hi, exec_st, pcRelative_zero]
  rfl

/-- Settles O42: ST stores at the address of the next fetch, which reads the stored word back. -/
theorem aStoredWordIsTheInstructionFetchedNext : Obligations.AStoredWordIsTheInstructionFetchedNext := by
  intro s sr hwf hpc hnext hi
  refine ⟨_, step_st_zero hpc hi, rfl, ?_⟩
  rw [step_plain (by simpa using hnext)]
  have hfetch : (memWrite (s.setPC (s.pc + 1#16)) (s.pc + 1#16) (s.reg sr)).word (s.pc + 1#16) = s.reg sr :=
    word_memWrite_same _ _ _ hwf
  simp [hfetch]

end Sys2Proof.Machine
end

section
/-! What the decoder answers: an instruction of the word's own row, whatever the maps (spec/30_encoding.md R50, R61). -/

namespace Sys2Proof.Machine

variable {c : Config}

theorem unlistedIn_iff {lo hi : Nat} {v : BitVec 8} :
    unlistedIn c lo hi v = true ↔ serviceOf c v = none ∧ lo ≤ v.toNat ∧ v.toNat ≤ hi := by
  simp [unlistedIn, vectorIn]

/-- The bounds of the six rows follow one another, so the first that a vector stays below names its row (R61, log 13). -/
theorem unlistedRow_wellFormed {v : BitVec 8} (h : serviceOf c v = none) : (unlistedRow v).wellFormed c = true := by
  have hv := v.isLt
  unfold unlistedRow
  split_ifs <;> exact unlistedIn_iff.2 ⟨h, by omega, by omega⟩

variable (c)

theorem serviceRow_wellFormed (x : Service) : (serviceRow x).wellFormed c = true := by cases x <;> rfl

theorem decodeTrap_wellFormed (v : BitVec 8) : (decodeTrap c v).wellFormed c = true := by
  unfold decodeTrap
  cases h : serviceOf c v with
  | some x => exact serviceRow_wellFormed c x
  | none => exact unlistedRow_wellFormed h

/-- Only a TRAP can be ill formed; every other field is in range by its type. -/
theorem decode_wellFormed (w : Word) : (decode c w).wellFormed c = true := by
  unfold decode
  cases opcodeName c (opcodeField w) with
  | trap => exact decodeTrap_wellFormed c (field w 0 8)
  | add | and | jsr => dsimp only; split <;> rfl
  | br | ld | st | ldr | str | rti | not | ldi | sti | jmp | res | lea => rfl

theorem tableWord_toNat (w : Word) : tableWord 16 w.toNat = w := by
  rw [tableWord, Nat.mod_eq_of_lt w.isLt, BitVec.ofNat_toNat, BitVec.setWidth_eq]

theorem decodeTableWord_toNat (w : Word) : decodeTableWord 16 w.toNat = some (decode defaultConfig w) := by
  rw [decodeTableWord, if_pos (Nat.le_refl 16), tableWord_toNat]

/-- Settles O2: TRAP by its service or its unlisted row, and a whole word read back from its number. -/
theorem everyWordDecodesToAWellFormedInstruction : Obligations.EveryWordDecodesToAWellFormedInstruction :=
  fun c w => ⟨decode_wellFormed c w, decodeTableWord_toNat w⟩

end Sys2Proof.Machine
end

section
/-! The operate instructions: each defines its destination from a value computed in the state before it, so what is left of
each is arithmetic on words (spec/40_operate.md). -/

namespace Sys2Proof.Machine

/-- Defining a register changes that register and COND only. -/
theorem onlyRegs_defineReg (s : State) (dr : Reg) (v : Word) : OnlyRegs [dr] s ((defineReg s dr v).setSignal .cont) :=
  ⟨fun _ hq => reg_defineReg_other s v (List.ne_of_not_mem_cons hq), fun _ => rfl, ⟨rfl, rfl, rfl, rfl, rfl⟩, rfl, rfl, rfl⟩

/-- An instruction that ends by defining a register completes with the value there and its sign in the flags (R15, R16). -/
theorem retContinue_defineReg_completes (s : State) (dr : Reg) (v : Word) :
    ∃ t, retContinue (defineReg s dr v) = .next t ∧ t.reg dr = v ∧
      FlagsSay t (t.reg dr) ∧ OnlyRegs [dr] s t ∧ t.pc = s.pc :=
  ⟨_, rfl, reg_defineReg_same s dr v, flagsSay_defineReg s dr v, onlyRegs_defineReg s dr v, rfl⟩

/-- Modulo 65536 the word may be read in two's complement as well as in `add_sext`. -/
theorem add_sext_toInt {n : Nat} (p : Word) (f : BitVec n) : p + sext f = BitVec.ofInt 16 (p.toInt + f.toInt) := by
  rw [BitVec.ofInt_add, BitVec.ofInt_toInt, sext, BitVec.signExtend]

/-- A sign-extended field repeats its top bit above itself (spec/00_scope.md R9). -/
theorem getLsbD_sext {n : Nat} (f : BitVec n) (h0 : 0 < n) {i : Nat} (hi : i < 16) :
    (sext f).getLsbD i = f.getLsbD (min i (n - 1)) := by
  rw [sext, BitVec.getLsbD_signExtend, decide_eq_true hi, Bool.true_and, BitVec.msb_eq_getLsbD_last]
  split
  · next h => rw [Nat.min_eq_left (by omega)]
  · next h => rw [Nat.min_eq_right (by omega)]

/-- Settles O15: both forms define DR; the sums are `BitVec.toNat_add` and `add_sext_toInt`. -/
theorem addWritesTheSumModulo65536 : Obligations.AddWritesTheSumModulo65536 := by
  refine ⟨fun dr sr1 sr2 s => ?_, fun dr sr1 imm s => ?_⟩
  · obtain ⟨t, ht, hv, hrest⟩ := retContinue_defineReg_completes s dr (s.reg sr1 + s.reg sr2)
    exact ⟨t, ht, hv ▸ BitVec.toNat_add _ _, hrest⟩
  · obtain ⟨t, ht, hv, hrest⟩ := retContinue_defineReg_completes s dr (s.reg sr1 + sext imm)
    exact ⟨t, ht, hv.trans (add_sext_toInt _ _), hrest⟩

/-- Settles O16: the three define DR; each bit of it is the bit operation on the operands' bits, the immediate's by
`getLsbD_sext`. -/
theorem andAndNotWorkBitByBit : Obligations.AndAndNotWorkBitByBit := by
  refine ⟨fun dr sr1 sr2 s => ?_, fun dr sr1 imm s => ?_, fun dr sr1 s => ?_⟩
  · obtain ⟨t, ht, hv, hrest⟩ := retContinue_defineReg_completes s dr (s.reg sr1 &&& s.reg sr2)
    refine ⟨t, ht, fun i _ => ?_, hrest⟩
    rw [hv, BitVec.getLsbD_and, Bool.and_eq_true]
  · obtain ⟨t, ht, hv, hrest⟩ := retContinue_defineReg_completes s dr (s.reg sr1 &&& sext imm)
    refine ⟨t, ht, fun i hi => ?_, hrest⟩
    rw [hv, BitVec.getLsbD_and, getLsbD_sext imm (by decide) hi, Bool.and_eq_true]
  · obtain ⟨t, ht, hv, hrest⟩ := retContinue_defineReg_completes s dr (~~~ s.reg sr1)
    refine ⟨t, ht, fun i hi => ?_, hv ▸ BitVec.toNat_not, hrest⟩
    rw [hv, BitVec.getLsbD_not, decide_eq_true hi, Bool.true_and, Bool.not_eq_true']

end Sys2Proof.Machine
end

section
/-! The transfers of control (spec/41_control.md): BR by its test, JMP, JSR, and a call that comes back. -/

namespace Sys2Proof.Machine

variable {s : State}

/-! ### BR -/

theorem exec_br (n z p : Bool) (off : BitVec 9) (s : State) : exec (.br n z p off) s =
    retContinue (if branchTaken n z p s.cond then s.setPC (pcRelative s off) else s) := rfl

/-- A taken branch goes to PC plus the offset (R80). -/
theorem exec_br_taken {n z p : Bool} (off : BitVec 9) (h : branchTaken n z p s.cond = true) :
    exec (.br n z p off) s = .next ((s.setPC (pcRelative s off)).setSignal .cont) := by
  rw [exec_br, if_pos h]
  rfl

/-- A branch not taken is a no-operation (R80). -/
theorem exec_br_notTaken {n z p : Bool} (off : BitVec 9) (h : ¬ branchTaken n z p s.cond = true) :
    exec (.br n z p off) s = .next (s.setSignal .cont) := by
  rw [exec_br, if_neg h]
  rfl

variable (s) in
/-- The branch test in the words of R80: n meets N, z meets Z or p meets P (D3). -/
theorem branchTaken_iff_flags (n z p : Bool) : branchTaken n z p s.cond = true ↔
    (n = true ∧ s.flagN = true ∨ z = true ∧ s.flagZ = true ∨ p = true ∧ s.flagP = true) := by
  simp only [branchTaken_iff, State.flagN, State.flagZ, State.flagP, Bool.or_eq_true, Bool.and_eq_true, or_assoc]

/-- No test bit meets no flag (R81 (a)). -/
theorem not_branchTaken_none (c : BitVec 3) : ¬ branchTaken false false false c = true := by
  simp [branchTaken_iff]

/-- All test bits meet the one flag that is set (R81 (b)). -/
theorem branchTaken_all {c : BitVec 3} (h : OneFlag c) : branchTaken true true true c = true := by
  rcases h with rfl | rfl | rfl <;> rfl

variable (s) in
/-- An end that only moves PC, by whatever value, changes nothing else. -/
theorem onlyRegs_setPC (v : Word) : OnlyRegs [] s ((s.setPC v).setSignal .cont) :=
  ⟨fun _ _ => rfl, fun _ => rfl, ⟨rfl, rfl, rfl, rfl, rfl⟩, rfl, rfl, rfl⟩

/-- Settles O20: the two ways BR ends, told apart by `branchTaken_iff_flags`. -/
theorem branchIsTakenWhenATestBitMeetsItsFlag : Obligations.BranchIsTakenWhenATestBitMeetsItsFlag := by
  intro n z p off s
  rw [← branchTaken_iff_flags s n z p]
  by_cases h : branchTaken n z p s.cond = true
  · exact ⟨_, exec_br_taken off h, fun _ => pcRelative_eq s off, fun hn => absurd h hn, onlyRegs_setPC s _, rfl⟩
  · exact ⟨_, exec_br_notTaken off h, fun ht => absurd ht h, fun _ => rfl, onlyRegs_setPC s s.pc, rfl⟩

/-- From the next address an offset of -1 leads back (R81 (c)). -/
theorem pcRelative_back_one (s : State) : pcRelative (s.setPC (s.pc + 1#16)) 0x1FF#9 = s.pc := by
  have hback : sext 0x1FF#9 = -1#16 := by decide
  rw [pcRelative, setPC_pc, hback, add_neg_cancel_right]

/-- Settles O21: the branch test of nzp = 000 fails and that of nzp = 111 holds, in `exec` and after a plain fetch. -/
theorem branchWithNoTestBitIsANopAndWithAllAlwaysBranches :
    Obligations.BranchWithNoTestBitIsANopAndWithAllAlwaysBranches := by
  refine ⟨fun s off hpc hi => ?_, by decide, fun s off h => ?_, fun s h hpc hi => ?_⟩
  · rw [step_plain hpc, hi, exec_br_notTaken off (not_branchTaken_none _)]
  · exact ⟨_, exec_br_taken off (branchTaken_all h), pcRelative_eq s off⟩
  · rw [step_plain hpc, hi]
    exact ⟨_, exec_br_taken _ (branchTaken_all h), pcRelative_back_one s⟩

/-! ### JMP and JSR -/

theorem exec_jmp (base : Reg) (s : State) : exec (.jmp base) s = .next ((s.setPC (s.reg base)).setSignal .cont) := rfl

theorem exec_jsr (off : BitVec 11) (s : State) :
    exec (.jsr off) s = .next (((s.setReg .r7 s.pc).setPC (pcRelative s off)).setSignal .cont) := rfl

variable (s) in
/-- An end that writes the link and moves PC changes R7 and PC only. -/
theorem onlyRegs_link (v w : Word) : OnlyRegs [.r7] s (((s.setReg .r7 v).setPC w).setSignal .cont) :=
  ⟨fun _ hq => reg_setReg_other s v (List.ne_of_not_mem_cons hq), fun _ => rfl, ⟨rfl, rfl, rfl, rfl, rfl⟩, rfl, rfl, rfl⟩

/-- Settles O22: `exec_jmp` and `exec_jsr` with their frames. -/
theorem jmpAndJsrTransferAndLink : Obligations.JmpAndJsrTransferAndLink :=
  ⟨fun base s => ⟨_, exec_jmp base s, rfl, onlyRegs_setPC s _, rfl⟩,
    fun off s => ⟨_, exec_jsr off s, rfl, pcRelative_eq s off, onlyRegs_link s _ _, rfl⟩⟩

/-! ### A call and its return -/

/-- The target of a transfer fetched at `s.pc`, in the terms of that address: the sum is modulo 65536 either way. -/
theorem pcRelative_next {n : Nat} (s : State) (off : BitVec n) :
    pcRelative (s.setPC (s.pc + 1#16)) off = BitVec.ofInt 16 (s.pc.toNat + 1 + off.toInt) := by
  rw [pcRelative, setPC_pc, BitVec.ofInt_add, BitVec.ofInt_add, BitVec.ofInt_natCast, BitVec.ofNat_toNat,
    BitVec.setWidth_eq]
  rfl

theorem step_jsr {off : BitVec 11} (hpc : s.pc ≠ s.cfg.kbsrAddr) (hi : decode s.cfg (s.word s.pc) = .jsr off) :
    step s = .next (((s.setReg .r7 (s.pc + 1#16)).setPC (BitVec.ofInt 16 (s.pc.toNat + 1 + off.toInt))).setSignal .cont) := by
  rw [step_plain hpc, hi, exec_jsr, pcRelative_next]
  rfl

theorem step_jmp {base : Reg} (hpc : s.pc ≠ s.cfg.kbsrAddr) (hi : decode s.cfg (s.word s.pc) = .jmp base) :
    step s = .next ((s.setPC (s.reg base)).setSignal .cont) := by
  rw [step_plain hpc, hi, exec_jmp]
  rfl

/-- Settles O24: the call leaves the word at its target and the parameters, so RET runs there, and goes to the link. -/
theorem callThenReturnComesBackBehindTheCall : Obligations.CallThenReturnComesBackBehindTheCall := by
  intro s off hpc hcall hpc' hret
  exact ⟨_, _, step_jsr hpc hcall, step_jmp hpc' hret, rfl, rfl, onlyRegs_link s _ _, rfl⟩

end Sys2Proof.Machine
end

section
/-! The loads and LEA (spec/42_load.md): LEA defines its destination from the address, the others from the word that a
`MemRead` at the address returns, in the state that the read leaves. -/

namespace Sys2Proof.Machine

/-- Settles O17: LEA defines DR from the address itself, with no read in between. -/
theorem leaWritesTheAddressAndSetsFlags : Obligations.LeaWritesTheAddressAndSetsFlags := by
  intro dr off s
  rw [← pcRelative_eq]
  exact retContinue_defineReg_completes s dr (pcRelative s off)

/-- A load completes with the word read in its register and nothing else changed but by the read (R94). -/
theorem retContinue_loadFrom_completes (s : State) (dr : Reg) (ea : Word) :
    ∃ t, retContinue (loadFrom s dr ea) = .next t ∧ Loaded dr ea s t := by
  obtain ⟨t, ht, hv, hflags, honly, hpc⟩ := retContinue_defineReg_completes (memRead s ea).2 dr (memRead s ea).1
  have ⟨hregs, _⟩ := honly
  refine ⟨t, ht, hv, hflags, honly, fun q hq => (hregs q hq).trans (memRead_reg s ea q), hpc.trans (memRead_pc s ea),
    fun hea => ?_⟩
  rw [memRead_plain s hea] at hv honly
  exact ⟨hv, honly⟩

/-- Settles O18: each load is `retContinue_loadFrom_completes` at its effective address. LDI loads from the state its pointer
read leaves, which has the registers and PC of the state before it and, off KBSR_ADDR, is that state. -/
theorem loadsReadTheirAddressingMode : Obligations.LoadsReadTheirAddressingMode := by
  refine ⟨fun dr off s => ?_, fun dr base off s => ?_, fun dr off s => ?_⟩
  · rw [← pcRelative_eq]
    exact retContinue_loadFrom_completes s dr (pcRelative s off)
  · rw [← basePlus_eq]
    exact retContinue_loadFrom_completes s dr (basePlus s base off)
  · rw [← pcRelative_eq]
    obtain ⟨t, ht, hload⟩ := retContinue_loadFrom_completes (indirect s off).2 dr (indirect s off).1
    have ⟨_, _, _, hregs, hpc, _⟩ := hload
    refine ⟨t, ht, hload, fun q hq => (hregs q hq).trans (memRead_reg _ _ q), hpc.trans (memRead_pc _ _), fun hp => ?_⟩
    rwa [indirect, memRead_plain s hp] at hload

end Sys2Proof.Machine
end

section
/-! The stores (spec/43_store.md): each ends with one `memWrite` at its address, STI in the state that its pointer read
leaves. -/

namespace Sys2Proof.Machine

/-- A plain store changes the word at its address only. -/
theorem onlyWord_memWrite (s : State) (a v : Word) : OnlyWord a s ((memWrite s a v).setSignal .cont) :=
  ⟨fun _ _ => rfl, fun _ hb => word_memWrite_other s v hb, ⟨rfl, rfl, rfl, rfl, rfl⟩, rfl, rfl, rfl, rfl, rfl⟩

/-- An instruction that ends by a store completes with the stored word at the address and nothing else changed (R103). -/
theorem retContinue_memWrite_completes {s : State} (a v : Word) (h : s.mem.wf = true) :
    ∃ t, retContinue (memWrite s a v) = .next t ∧ t.word a = v ∧ OnlyWord a s t :=
  ⟨_, rfl, word_memWrite_same s a v h, onlyWord_memWrite s a v⟩

/-- The pointer read leaves the source register as it was (R101). -/
theorem exec_sti (sr : Reg) (off : BitVec 9) (s : State) : exec (.sti sr off) s =
    retContinue (memWrite (indirect s off).2 (indirect s off).1 (s.reg sr)) := by
  rw [← memRead_reg s (pcRelative s off)]
  rfl

/-- Settles O19: each store is `retContinue_memWrite_completes` at its effective address. STI stores in the state its pointer
read leaves, which has canonical memory, the registers, COND and PC of the state before it and, off KBSR_ADDR, is that
state. -/
theorem storesWriteOneWordAndNothingElse : Obligations.StoresWriteOneWordAndNothingElse := by
  refine ⟨fun sr off s hwf => ?_, fun sr base off s hwf => ?_, fun sr off s hwf => ?_⟩
  · rw [← pcRelative_eq]
    exact retContinue_memWrite_completes (pcRelative s off) (s.reg sr) hwf
  · rw [← basePlus_eq]
    exact retContinue_memWrite_completes (basePlus s base off) (s.reg sr) hwf
  · rw [← pcRelative_eq, exec_sti]
    obtain ⟨t, ht, hword, honly⟩ :=
      retContinue_memWrite_completes (indirect s off).1 (s.reg sr) (memRead_wf s (pcRelative s off) hwf)
    have ⟨hregs, _, _, _, _, _, hcond, hpc⟩ := honly
    refine ⟨t, ht, hword, honly, fun q hq => (hregs q hq).trans (memRead_reg _ _ q), hcond.trans (memRead_cond _ _),
      hpc.trans (memRead_pc _ _), fun hp => ?_⟩
    rw [indirect, memRead_plain s hp] at hword honly
    exact ⟨hword, honly⟩

end Sys2Proof.Machine
end

section
/-! The entry to a service and its output, which are all of OUT (spec/44_trap.md R110, R113); and HALT, which is the entry
alone (R117). -/

namespace Sys2Proof.Machine

theorem conOut_nil (s : State) : conOut s [] = s := by
  rw [conOut, List.append_nil]

theorem conOut_conOut (s : State) (bs bs' : List Byte) : conOut (conOut s bs) bs' = conOut s (bs ++ bs') := by
  rw [conOut, conOut, conOut, List.append_assoc]

/-- The console has received `bs` and R7 is the incremented PC; nothing else has changed; the step's signal is continue. -/
def ServiceWrites (bs : List Byte) (s t : State) : Prop :=
  t.conOutLog = s.conOutLog ++ bs ∧ t.reg .r7 = s.pc ∧ SameRegsBut [.r7] s t ∧ t.cond = s.cond ∧ t.pc = s.pc ∧
    SameMemory s t ∧ SameKeyboard s t ∧ t.cfg = s.cfg ∧ t.signal = .cont

/-- The entry writes R7 only (R110). -/
theorem sameRegsBut_trapEntry (s : State) : SameRegsBut [.r7] s (trapEntry s) :=
  fun _ hq => reg_trapEntry_other s (List.ne_of_not_mem_cons hq)

/-- The entry to a service and its output change R7 and the console only (R110, R144). -/
theorem retContinue_conOut_trapEntry_completes (s : State) (bs : List Byte) :
    ∃ t, retContinue (conOut (trapEntry s) bs) = .next t ∧ ServiceWrites bs s t :=
  ⟨_, rfl, rfl, reg_trapEntry_link s, sameRegsBut_trapEntry s, rfl, rfl, fun _ => rfl, ⟨rfl, rfl, rfl, rfl, rfl⟩, rfl, rfl⟩

/-- The entry leaves R0, which OUT reads after it. -/
theorem exec_trapOut (s : State) :
    exec .trapOut s = retContinue (conOut (trapEntry s) [BitVec.ofNat 8 ((s.reg .r0).toNat % 256)]) := by
  rw [← lowByte_eq, ← reg_trapEntry_other s (q := .r0) (by decide)]
  rfl

/-- Settles O29: the entry, and then the low byte of R0. -/
theorem outWritesTheLowByteOfR0 : Obligations.OutWritesTheLowByteOfR0 := by
  intro s
  rw [exec_trapOut]
  exact retContinue_conOut_trapEntry_completes s _

/-- Settles O32: HALT is the entry with the signal halt, and `exec_next_signal` says that no other instruction has it. -/
theorem haltSignalsTerminationAndOnlyHaltDoes : Obligations.HaltSignalsTerminationAndOnlyHaltDoes :=
  ⟨fun s => ⟨(trapEntry s).setSignal .halt, rfl, rfl, reg_trapEntry_link s, sameRegsBut_trapEntry s, rfl, rfl,
      fun _ => rfl, ⟨rfl, rfl, rfl, rfl, rfl⟩, rfl, rfl⟩,
    fun _ _ _ h => (exec_next_signal h).1⟩

end Sys2Proof.Machine
end

section
/-! GETC and IN with a character there (spec/44_trap.md R112, R115): IN is GETC with a prompt before the read and an echo
after it, so both are one read after some output. -/

namespace Sys2Proof.Machine

variable {s : State} {c : Byte} {cs : List Byte}

/-- The character goes to the console if it is echoed, and to R0 (R111). -/
theorem readChar_nextKey_eq (echo : Bool) (h : NextKey s c cs) : readChar echo s =
    retContinue (defineReg (conOut (s.setKbdIn cs) (if echo then [c] else [])) .r0 (zext16 c)) := by
  rw [readChar_reads echo (kbdGet_nextKey h)]
  cases echo with
  | true => rfl
  | false => rw [if_neg nofun, if_neg nofun, conOut_nil]

/-- A character is never negative as a word (D16). -/
theorem flagN_of_byte {v : Word} (hv : v.toNat = c.toNat) (h : FlagsSay s v) : s.flagN = false := by
  obtain ⟨hn, _, _⟩ := h
  have hc := c.isLt
  have hpos : ¬ v.toInt < 0 := by
    rw [BitVec.toInt_eq_toNat_of_lt (by omega)]
    omega
  exact Bool.eq_false_iff.2 fun hs => hpos (hn.1 hs)

/-- A service that writes `bs` and then reads a character changes the console, KbdIn, R0, R7 and the flags only. -/
theorem readChar_conOut_trapEntry_completes (echo : Bool) (bs : List Byte) (h : NextKey s c cs) :
    ∃ t, readChar echo (conOut (trapEntry s) bs) = .next t ∧
      t.conOutLog = s.conOutLog ++ bs ++ (if echo then [c] else []) ∧
      (t.reg .r0).toNat = c.toNat ∧ FlagsSay t (t.reg .r0) ∧ t.flagN = false ∧ t.kbdIn = cs ∧ t.kbdHeld = s.kbdHeld ∧
      t.reg .r7 = s.pc ∧ SameRegsBut [.r0, .r7] s t ∧ SameMemory s t ∧ t.kbdPolls = s.kbdPolls ∧
      t.pollRun = s.pollRun ∧ t.pollCount = s.pollCount ∧ t.pc = s.pc ∧ t.cfg = s.cfg ∧ t.signal = .cont := by
  have hr0 (u : State) : (((defineReg u .r0 (zext16 c)).setSignal .cont).reg .r0).toNat = c.toNat := by
    rw [setSignal_reg, reg_defineReg_same, zext16_toNat]
  refine ⟨_, readChar_nextKey_eq echo h, rfl, hr0 _, flagsSay_defineReg _ _ _,
    flagN_of_byte (hr0 _) (flagsSay_defineReg _ _ _), rfl, rfl, ?_, fun q hq => ?_, fun _ => rfl, rfl, rfl, rfl, rfl, rfl, rfl⟩
  · exact (reg_defineReg_other _ _ (by decide)).trans (reg_trapEntry_link s)
  · obtain ⟨h0, h7⟩ := not_or.1 (List.mem_pair.not.1 hq)
    exact (reg_defineReg_other _ _ h0).trans (reg_trapEntry_other s h7)

/-- Settles O26: GETC is the read with no output before it and no echo. -/
theorem getcReadsOneCharacterWithoutEcho : Obligations.GetcReadsOneCharacterWithoutEcho := by
  intro s c cs h
  obtain ⟨t, ht, hout, hr0, hflags, hn, hin, hheld, hr7, hregs, hmem, hrest⟩ :=
    readChar_conOut_trapEntry_completes false [] h
  rw [conOut_nil] at ht
  rw [if_neg nofun, List.append_nil, List.append_nil] at hout
  exact ⟨t, ht, hr0, hflags, hn, hin, hheld, hr7, hregs, hmem, hout, hrest⟩

/-- Settles O27: IN is the read with the prompt before it and with echo. -/
theorem inPromptsReadsAndEchoes : Obligations.InPromptsReadsAndEchoes :=
  fun s _ _ h => readChar_conOut_trapEntry_completes true s.cfg.inPrompt h

end Sys2Proof.Machine
end

section
/-! PUTS and PUTSP over a string that no read of KBSR_ADDR meets (spec/44_trap.md R114, R116): every read is plain, so the
loop follows the list of the string's words. -/

namespace Sys2Proof.Machine

/-- The words `ws`, none of them zero, stand from `a` up, a zero word ends them, and KBSR_ADDR is not among their addresses. -/
def PlainString (s : State) : Word → List Word → Prop
  | a, [] => a ≠ s.cfg.kbsrAddr ∧ s.word a = 0x0000#16
  | a, w :: ws => a ≠ s.cfg.kbsrAddr ∧ s.word a = w ∧ w ≠ 0x0000#16 ∧ PlainString s (a + 1#16) ws

theorem add_ofNat_succ (a : Word) (k : Nat) : a + BitVec.ofNat 16 (k + 1) = a + 1#16 + BitVec.ofNat 16 k := by
  rw [Nat.add_comm, BitVec.ofNat_add, BitVec.add_assoc]

theorem plainString_of_words {s : State} : ∀ {a : Word} {ws : List Word},
    (∀ k, (h : k < ws.length) → s.word (a + BitVec.ofNat 16 k) = ws[k] ∧ ws[k] ≠ 0x0000#16) →
    s.word (a + BitVec.ofNat 16 ws.length) = 0x0000#16 →
    (∀ k, k ≤ ws.length → a + BitVec.ofNat 16 k ≠ s.cfg.kbsrAddr) → PlainString s a ws
  | a, [], _, hz, hk => by
    have h0 := BitVec.add_zero a
    exact ⟨h0 ▸ hk 0 (Nat.zero_le _), h0 ▸ hz⟩
  | a, w :: ws, hw, hz, hk => by
    have h0 := BitVec.add_zero a
    obtain ⟨hword, hne⟩ := hw 0 (Nat.succ_pos _)
    refine ⟨h0 ▸ hk 0 (Nat.zero_le _), h0 ▸ hword, hne, plainString_of_words (fun k h => ?_) ?_ fun k h => ?_⟩
    · exact add_ofNat_succ a k ▸ hw (k + 1) (Nat.succ_lt_succ h)
    · exact add_ofNat_succ a ws.length ▸ hz
    · exact add_ofNat_succ a k ▸ hk (k + 1) (Nat.succ_le_succ h)

/-- The same memory holds the same strings. -/
theorem PlainString.of_sameMemory {s t : State} : ∀ {a : Word} {ws : List Word}, PlainString s a ws → t.cfg = s.cfg →
    SameMemory s t → PlainString t a ws
  | a, [], ⟨hk, hz⟩, hcfg, hmem => ⟨hcfg ▸ hk, (hmem a).trans hz⟩
  | a, _ :: _, ⟨hk, hword, hne, hrest⟩, hcfg, hmem =>
    ⟨hcfg ▸ hk, (hmem a).trans hword, hne, hrest.of_sameMemory hcfg hmem⟩

/-- The loop writes the characters of each word in turn and touches nothing else. -/
theorem PlainString.stringLoop_eq (chars : Word → List Byte) : ∀ {ws : List Word} {a : Word} {s : State} {n : Nat},
    PlainString s a ws → ws.length < n → stringLoop chars n a s = some (conOut s (ws.flatMap chars))
  | [], a, s, n + 1, ⟨hk, hz⟩, _ => by
    have hread := memRead_plain s hk
    rw [stringLoop_end chars n (by rw [hread, hz]), hread, List.flatMap_nil, conOut_nil]
  | w :: ws, a, s, n + 1, ⟨hk, hword, hne, hrest⟩, hn => by
    have hread := memRead_plain s hk
    rw [stringLoop_more chars n (by rwa [hread, hword]), hread, hword,
      (hrest.of_sameMemory (t := conOut s (chars w)) rfl fun _ => rfl).stringLoop_eq chars (Nat.lt_of_succ_lt_succ hn),
      conOut_conOut, List.flatMap_cons]

/-- A string that does not meet KBSR_ADDR is shorter than memory. -/
theorem length_lt_of_ne_kbsrAddr {s : State} {a : Word} {n : Nat}
    (h : ∀ k, k ≤ n → a + BitVec.ofNat 16 k ≠ s.cfg.kbsrAddr) : n < 65536 := by
  have hk := (s.cfg.kbsrAddr - a).isLt
  by_contra hn
  refine h (s.cfg.kbsrAddr - a).toNat (by omega) ?_
  rw [BitVec.ofNat_toNat, BitVec.setWidth_eq, BitVec.add_comm, BitVec.sub_add_cancel]

/-- A string service over a plain string completes with the characters of its words on the console. -/
theorem stringService_trapEntry_completes (chars : Word → List Byte) {s : State} {ws : List Word}
    (h : PlainString s (s.reg .r0) ws) (hlen : ws.length < 65536) :
    ∃ t, stringService chars (trapEntry s) = .next t ∧ ServiceWrites (ws.flatMap chars) s t := by
  have hentry : PlainString (trapEntry s) ((trapEntry s).reg .r0) ws := by
    rw [reg_trapEntry_other s (by decide)]
    exact h.of_sameMemory rfl fun _ => rfl
  rw [stringService_ends (hentry.stringLoop_eq chars (by unfold stringFuel; omega))]
  exact retContinue_conOut_trapEntry_completes s _

theorem putsChars_eq (w : Word) : putsChars w = [BitVec.ofNat 8 (w.toNat % 256)] := by
  rw [putsChars, lowByte_eq]

theorem putspChars_eq (w : Word) : putspChars w =
    if w.toNat / 256 = 0 then [BitVec.ofNat 8 (w.toNat % 256)]
    else [BitVec.ofNat 8 (w.toNat % 256), BitVec.ofNat 8 (w.toNat / 256)] := by
  have hzero : highByte w = 0#8 ↔ w.toNat / 256 = 0 := by
    rw [← highByte_toNat, ← BitVec.toNat_inj, BitVec.toNat_ofNat]
  rw [← lowByte_eq, ← highByte_eq]
  exact if_congr hzero rfl rfl

/-- Settles O31: a string that does not meet KBSR_ADDR is plain and shorter than the fuel, whatever a word's characters are. -/
theorem plainStringsAreWrittenCharacterByCharacter : Obligations.PlainStringsAreWrittenCharacterByCharacter := by
  intro s ws hwords hzero hkbsr
  have hservice (chars : Word → List Byte) :=
    stringService_trapEntry_completes chars (plainString_of_words hwords hzero hkbsr) (length_lt_of_ne_kbsrAddr hkbsr)
  constructor
  · rw [List.map_eq_flatMap, ← funext putsChars_eq]
    exact hservice putsChars
  · rw [← funext putspChars_eq]
    exact hservice putspChars

end Sys2Proof.Machine
end

section
/-! The exceptions (spec/60_exceptions.md): the entry to a TRAP service (R144), the fatal outcome of RES and RTI (R140, R145),
and that every other instruction succeeds (R141). -/

namespace Sys2Proof.Machine

theorem SameRegsBut.mono {rs rs' : List Reg} {s t : State} (hsub : rs ⊆ rs') (h : SameRegsBut rs s t) :
    SameRegsBut rs' s t :=
  fun q hq => h q fun hm => hq (hsub hm)

/-- A TRAP is no transfer and no store, and writes no register but R0 and R7 (R11, R110). -/
theorem writes_of_isTrap {i : Instr} (h : isTrap i = true) :
    writesPC i = false ∧ isStore i = false ∧ writesRegs i ⊆ [.r0, .r7] := by
  cases i <;> cases h <;> exact ⟨rfl, rfl, by simp [writesRegs]⟩

/-- A TRAP other than the two character reads writes R7 only and no flag (R15, R110). -/
theorem writes_of_isTrap_not_read {i : Instr} (h : isTrap i = true) (hg : i ≠ .trapGetc) (hn : i ≠ .trapIn) :
    writesRegs i = [.r7] ∧ flagSource i = none := by
  cases i with
  | trapGetc => exact absurd rfl hg
  | trapIn => exact absurd rfl hn
  | _ => cases h <;> exact ⟨rfl, rfl⟩

/-- A character read writes no register but R0. -/
theorem readChar_next_reg {echo : Bool} {u t : State} {q : Reg} (h : readChar echo u = .next t) (hq : q ≠ .r0) :
    t.reg q = u.reg q := by
  obtain ⟨c, cs, _, rfl⟩ := readChar_next h
  rw [setSignal_reg, reg_defineReg_other _ _ hq]
  split <;> rfl

/-- A string service writes no register. -/
theorem stringService_next_reg {chars : Word → List Byte} {u t : State} (h : stringService chars u = .next t) (q : Reg) :
    t.reg q = u.reg q := by
  obtain ⟨v, hv, rfl⟩ := stringService_next h
  obtain ⟨hregs, _⟩ := stringLoop_frame chars hv
  exact congrArg (·.get q) hregs

/-- The entry saves the incremented PC in R7 and no service overwrites it (R144). -/
theorem exec_next_link {i : Instr} {s t : State} (hi : isTrap i = true) (h : exec i s = .next t) : t.reg .r7 = s.pc := by
  have hlink := reg_trapEntry_link s
  cases i with
  | trapGetc | trapIn => exact (readChar_next_reg h (by decide)).trans hlink
  | trapPuts | trapPutsp => exact (stringService_next_reg h .r7).trans hlink
  | trapHalt => exact retHalt_next.1 h ▸ hlink
  | trapOut | trapUnlisted00 | trapUnlisted26 | trapUnlisted28 | trapUnlisted30 | trapUnlisted40 | trapUnlisted80 =>
    exact retContinue_next.1 h ▸ hlink
  | _ => cases hi

/-- Settles O25: the saved address is `exec_next_link`; the rest is what the spec's lists let a TRAP write. -/
theorem trapSavesTheNextAddressInR7AndNothingElse : Obligations.TrapSavesTheNextAddressInR7AndNothingElse := by
  intro i s t hi h
  obtain ⟨hpc, hstore, hsub⟩ := writes_of_isTrap hi
  have hregs := exec_next_sameRegsBut h
  obtain ⟨hcfg, hwords⟩ := exec_next_sameButKeyboardWords hstore h
  refine ⟨exec_next_link hi h, exec_next_pc hpc h, hregs.mono hsub, fun hg hn => ?_, hwords, hcfg⟩
  obtain ⟨hr7, hflag⟩ := writes_of_isTrap_not_read hi hg hn
  exact ⟨hr7 ▸ hregs, exec_next_cond hflag h⟩

theorem exec_res (s : State) : exec .res s = .fault (.badInstruction s) := rfl

theorem exec_rti (s : State) : exec .rti s = .fault (.badInstruction s) := rfl

/-- The failed run's last state is the one the fetch left (R145, logs 9 and 24). -/
theorem step_fatal {s : State} (h : decode s.cfg (memRead s s.pc).1 = .res ∨ decode s.cfg (memRead s s.pc).1 = .rti) :
    step s = .fault (.badInstruction ((memRead s s.pc).2.setPC (s.pc + 1#16))) := by
  rw [step_eq]
  rcases h with h | h
  · rw [h, exec_res]
  · rw [h, exec_rti]

/-- Settles O34: a fetch changes PC and what its read changes, which is nothing at an ordinary address. -/
theorem resAndRtiAreFatalWithNothingButPcChanged : Obligations.ResAndRtiAreFatalWithNothingButPcChanged := by
  refine ⟨fun s => ⟨exec_res s, exec_rti s⟩, fun s h => ⟨_, step_fatal h, rfl, fun q _ => memRead_reg s _ q,
    memRead_cond s _, memRead_conOutLog s _, memRead_cfg s _, rfl, ⟨rfl, rfl, rfl, rfl, rfl⟩, fun hpc => ?_⟩⟩
  rw [memRead_plain s hpc]
  exact ⟨fun _ => rfl, rfl, rfl, rfl, rfl, rfl⟩

/-- Settles O36: of the ways an instruction ends, the premises rule out the fatal one, the wait and the hang. -/
theorem everyOtherInstructionCompletes : Obligations.EveryOtherInstructionCompletes := by
  intro i s hres hrti hkey hstring
  have e := exec_ending i s
  generalize exec i s = o at e ⊢
  cases e with
  | continues u => exact ⟨_, rfl⟩
  | halts => exact ⟨_, rfl⟩
  | fatal hi => exact absurd hi (not_or.2 ⟨hres, hrti⟩)
  | waits _ hi hk => exact absurd hk (hkey hi)
  | hangs hi hc =>
    obtain ⟨hwords, hheld⟩ := hc
    rcases hstring hi with ⟨a, h1, h2, hz⟩ | ⟨hw, hh⟩
    · exact absurd hz (hwords a h1 h2)
    · exact absurd hh (hheld hw)

end Sys2Proof.Machine
end

section
/-! PUTS and PUTSP against their loop without a bound (spec/44_trap.md R114, R116, D20): some fuel ends the model's loop exactly
where that one ends, and `stringFuel` decides which. -/

namespace Sys2Proof.Machine

variable {chars : Word → List Byte}

theorem stringRun_of_stringLoop : ∀ {n : Nat} {a : Word} {s t : State}, stringLoop chars n a s = some t →
    StringRun chars a s t
  | 0, _, _, _, h => nomatch h
  | n + 1, a, s, t, h => by
    by_cases hz : (memRead s a).1 = 0x0000#16
    · rw [stringLoop_end chars n hz] at h
      cases h
      exact .stop hz
    · rw [stringLoop_more chars n hz] at h
      exact .more hz (stringRun_of_stringLoop h)

theorem StringRun.exists_stringLoop {a : Word} {s t : State} (h : StringRun chars a s t) :
    ∃ n, stringLoop chars n a s = some t := by
  induction h with
  | stop hz => exact ⟨1, stringLoop_end chars 0 hz⟩
  | more hz _ ih =>
    obtain ⟨n, hn⟩ := ih
    exact ⟨n + 1, (stringLoop_more chars n hz).trans hn⟩

/-- A string service completes where its unbounded loop ends, with R7 written by the entry and nothing else but what the
loop's reads and outputs change; where that loop has no end it hangs. -/
theorem stringService_trapEntry_ends_or_hangs (chars : Word → List Byte) (s : State) (hw : s.mem.wf = true) :
    (∃ u, StringRun chars (s.reg .r0) (trapEntry s) u ∧ stringService chars (trapEntry s) = .next (u.setSignal .cont) ∧
      u.reg .r7 = s.pc ∧ SameRegsBut [.r7] s u ∧ u.cond = s.cond ∧ u.pc = s.pc ∧ u.cfg = s.cfg) ∨
    (stringService chars (trapEntry s) = .fault (.stringUnending (trapEntry s)) ∧
      ¬ ∃ u, StringRun chars (s.reg .r0) (trapEntry s) u) := by
  rw [← reg_trapEntry_other s (q := .r0) (by decide)]
  rcases stringService_cases chars (trapEntry s) with ⟨u, hu, e⟩ | ⟨hnone, e⟩
  · obtain ⟨hregs, hpc, hcond, _, hcfg⟩ := stringLoop_frame chars hu
    have hreg (q : Reg) : u.reg q = (trapEntry s).reg q := congrArg (·.get q) hregs
    exact .inl ⟨u, stringRun_of_stringLoop hu, e, (hreg .r7).trans (reg_trapEntry_link s),
      fun q hq => (hreg q).trans (sameRegsBut_trapEntry s q hq), hcond, hpc, hcfg⟩
  · refine .inr ⟨e, fun ⟨u, hu⟩ => ?_⟩
    obtain ⟨n, hn⟩ := hu.exists_stringLoop
    obtain ⟨_, hnever⟩ := stringLoop_never chars (s := trapEntry s) hw hnone
    cases (hnever n).symm.trans hn

/-- Settles O30: both services are `stringService` after the entry, each with its own characters of a word. -/
theorem putsAndPutspEndAfterTheirWholeStringOrNeverEnd : Obligations.PutsAndPutspEndAfterTheirWholeStringOrNeverEnd := by
  intro s hw
  rw [← funext putsChars_eq, ← funext putspChars_eq]
  exact ⟨stringService_trapEntry_ends_or_hangs putsChars s hw, stringService_trapEntry_ends_or_hangs putspChars s hw⟩

theorem NoZeroAhead.trapEntry {s : State} (h : NoZeroAhead s) : NoZeroAhead (trapEntry s) :=
  ⟨h.wf, h.words, h.held, h.listed, h.ready, h.run⟩

theorem NoZeroAhead.stringService_hangs {s : State} (h : NoZeroAhead s) (chars : Word → List Byte) :
    stringService chars s = .fault (.stringUnending s) :=
  Machine.stringService_hangs (h.never chars _ _)

/-- Settles O52: the premises are `NoZeroAhead`, which the entry keeps and in which no string service ends. -/
theorem putsAndPutspHangWhereNoReadCanFindAZeroWord : Obligations.PutsAndPutspHangWhereNoReadCanFindAZeroWord := by
  intro s c hw hwords hheld hc hlisted hready hrun
  have h : NoZeroAhead (trapEntry s) := NoZeroAhead.trapEntry ⟨hw, hwords, ⟨c, hheld, hc⟩, hlisted, hready, hrun⟩
  exact ⟨h.stringService_hangs putsChars, h.stringService_hangs putspChars⟩

end Sys2Proof.Machine
end

section
/-! What ends a run (spec/70_reset_and_hazards.md R165, R172): which instructions can stop the machine, and the free run as one
step after another. -/

namespace Sys2Proof.Machine

/-- Settles O35: each outcome other than completion belongs to the instructions of its own kind of ending. -/
theorem nothingButResAndRtiRaisesAnException : Obligations.NothingButResAndRtiRaisesAnException :=
  fun i s => ⟨fun u h => exec_fatal_iff.1 ⟨u, h⟩, fun _ => exec_awaitsKey, fun _ => exec_stringUnending, exec_not_refused i s⟩

theorem step_not_refused (s : State) (r : Refusal) : step s ≠ .refused r := exec_not_refused _ _ r

/-- The step from `s` does not continue, and a run that comes to it stands at `e` (R165, R172). -/
inductive LastStep (s : State) : RunEnd → Prop where
  | halted {t : State} (h : step s = .next t) (hh : t.signal = .halt) : LastStep s (.halted t)
  | failed {v : State} (h : step s = .fault (.badInstruction v)) : LastStep s (.failed v)
  | waiting {v : State} (h : step s = .fault (.awaitsKey v)) : LastStep s (.waiting v)
  | hanging {v : State} (h : step s = .fault (.stringUnending v)) : LastStep s (.hanging v)

namespace LastStep

variable {s t v : State}

theorem halted_iff : LastStep s (.halted t) ↔ step s = .next t ∧ t.signal = .halt :=
  ⟨fun | .halted h hh => ⟨h, hh⟩, fun ⟨h, hh⟩ => .halted h hh⟩

theorem failed_iff : LastStep s (.failed v) ↔ step s = .fault (.badInstruction v) :=
  ⟨fun | .failed h => h, .failed⟩

theorem waiting_iff : LastStep s (.waiting v) ↔ step s = .fault (.awaitsKey v) :=
  ⟨fun | .waiting h => h, .waiting⟩

theorem hanging_iff : LastStep s (.hanging v) ↔ step s = .fault (.stringUnending v) :=
  ⟨fun | .hanging h => h, .hanging⟩

/-- However many more steps are allowed, none follows it. -/
theorem freeRun_succ {e : RunEnd} (h : LastStep s e) (k : Nat) : freeRun (k + 1) s = e := by
  cases h with
  | halted h hs => simp [freeRun, h, hs]
  | failed h | waiting h | hanging h => simp [freeRun, h]

end LastStep

/-- A step continues or is a run's last. -/
theorem continues_or_lastStep (s : State) : (∃ t, step s = .next t ∧ t.signal = .cont) ∨ ∃ e, LastStep s e := by
  cases h : step s with
  | next t =>
    cases hs : t.signal with
    | cont => exact .inl ⟨t, rfl, hs⟩
    | halt => exact .inr ⟨_, .halted h hs⟩
  | fault r =>
    cases r with
    | badInstruction => exact .inr ⟨_, .failed h⟩
    | awaitsKey => exact .inr ⟨_, .waiting h⟩
    | stringUnending => exact .inr ⟨_, .hanging h⟩
  | refused r => exact absurd h (step_not_refused s r)

theorem freeRun_succ_of_continue {s t : State} (k : Nat) (h : step s = .next t) (hc : t.signal = .cont) :
    freeRun (k + 1) s = freeRun k t := by
  simp [freeRun, h, hc]

/-- After steps that continue, the run goes on with the steps that are left. -/
theorem Continues.freeRun_add {j : Nat} {s u : State} (h : Continues j s u) (m : Nat) : freeRun (m + j) s = freeRun m u := by
  induction h with
  | zero => rfl
  | succ h hc _ ih => exact (freeRun_succ_of_continue _ h hc).trans ih

/-- A run has continued throughout, or stands where the first step that does not continue left it. -/
theorem freeRun_cases : ∀ (k : Nat) (s : State), (∃ t, Continues k s t ∧ freeRun k s = .running t) ∨
    ∃ j u, j < k ∧ Continues j s u ∧ LastStep u (freeRun k s)
  | 0, s => .inl ⟨s, .zero s, rfl⟩
  | k + 1, s => by
    rcases continues_or_lastStep s with ⟨t, h, hc⟩ | ⟨e, he⟩
    · rw [freeRun_succ_of_continue k h hc]
      rcases freeRun_cases k t with ⟨v, hv, e⟩ | ⟨j, u, hj, hu, he⟩
      · exact .inl ⟨v, .succ h hc hv, e⟩
      · exact .inr ⟨j + 1, u, Nat.succ_lt_succ hj, .succ h hc hu, he⟩
    · exact .inr ⟨0, s, k.succ_pos, .zero s, (he.freeRun_succ k).symm ▸ he⟩

theorem freeRun_running_iff {k : Nat} {s t : State} : freeRun k s = .running t ↔ Continues k s t := by
  refine ⟨fun h => ?_, fun h => Nat.zero_add k ▸ h.freeRun_add 0⟩
  rcases freeRun_cases k s with ⟨u, hu, e⟩ | ⟨j, u, _, _, he⟩
  · cases h.symm.trans e
    exact hu
  · cases h ▸ he

/-- Every other place where a run can stand is the one that its last step leaves it at. -/
theorem freeRun_eq_iff_lastStep {k : Nat} {s : State} {e : RunEnd} (hne : ∀ t, e ≠ .running t) :
    freeRun k s = e ↔ ∃ j u, j < k ∧ Continues j s u ∧ LastStep u e := by
  constructor
  · rintro rfl
    exact (freeRun_cases k s).resolve_left fun ⟨t, _, h⟩ => hne t h
  · rintro ⟨j, u, hj, hu, he⟩
    obtain ⟨m, rfl⟩ := Nat.exists_eq_add_of_lt hj
    rw [show j + m + 1 = m + 1 + j by omega, hu.freeRun_add, he.freeRun_succ]

/-- Settles O49: a run is going on while its steps continue, and otherwise stands where its last step leaves it. -/
theorem aRunEndsAtTheFirstOutcomeThatIsNotContinue : Obligations.ARunEndsAtTheFirstOutcomeThatIsNotContinue := by
  intro k s
  refine ⟨fun t => freeRun_running_iff, fun t => ?_, fun v => ?_, fun v => ?_, fun v => ?_, fun r h => ?_⟩
  · simp only [freeRun_eq_iff_lastStep (e := .halted t) (by simp), LastStep.halted_iff]
  · simp only [freeRun_eq_iff_lastStep (e := .failed v) (by simp), LastStep.failed_iff]
  · simp only [freeRun_eq_iff_lastStep (e := .waiting v) (by simp), LastStep.waiting_iff]
  · simp only [freeRun_eq_iff_lastStep (e := .hanging v) (by simp), LastStep.hanging_iff]
  · obtain ⟨_, _, _, _, he⟩ := (freeRun_eq_iff_lastStep (e := .refused r) (by simp)).1 h
    cases he

end Sys2Proof.Machine
end

section
/-! The host's load (spec/70_reset_and_hazards.md R163): the words of an image, and where they go. -/

namespace Sys2Proof.Machine

theorem append_toNat (hi lo : Byte) : (hi ++ lo).toNat = hi.toNat * 256 + lo.toNat := by
  rw [BitVec.toNat_append, ← Nat.shiftLeft_add_eq_or_of_lt lo.isLt, Nat.shiftLeft_eq]

/-- Word `k` of an image is its bytes `2k` and `2k + 1`, if both are there (log 21). -/
theorem imageWords_getElem? : ∀ (b : List Byte) (k : Nat), (imageWords b)[k]? =
    if 2 * k + 1 < b.length then some (b.getD (2 * k) 0#8 ++ b.getD (2 * k + 1) 0#8) else none
  | [], k => by simp [imageWords]
  | [_], k => by simp [imageWords]
  | hi :: lo :: rest, 0 => by simp [imageWords]
  | hi :: lo :: rest, k + 1 => by
    have hlt : 2 * (k + 1) + 1 < (hi :: lo :: rest).length ↔ 2 * k + 1 < rest.length :=
      Nat.add_lt_add_iff_right (k := 2)
    exact (imageWords_getElem? rest k).trans (if_congr hlt.symm rfl rfl)

/-- A load from `a` up puts word `k` at `a + k`, below the end of memory, and leaves every other address (D28). -/
theorem read_loadWords {x : Nat} (hx : x < 65536) : ∀ {a : Nat} {ws : List Word} {m : Memory}, m.wf = true →
    (loadWords a ws m).read x = (if a ≤ x then ws[x - a]? else none).getD (m.read x)
  | a, [], m, _ => by
    rw [List.getElem?_nil, ite_self]
    rfl
  | a, w :: ws, m, hm => by
    unfold loadWords
    split
    · next ha =>
      obtain ⟨hwf, hread⟩ := Memory.write_spec w hm (Nat.zero_le a) ha
      rw [read_loadWords hx (a := a + 1) hwf, hread x]
      rcases Nat.lt_trichotomy a x with h | rfl | h
      · obtain ⟨d, rfl⟩ := Nat.exists_eq_add_of_lt h
        rw [if_pos (Nat.succ_le_of_lt h), if_neg h.ne, if_pos h.le, show a + d + 1 - (a + 1) = d by omega,
          show a + d + 1 - a = d + 1 by omega, List.getElem?_cons_succ]
      · rw [if_neg (Nat.not_succ_le_self a), if_pos rfl, if_pos le_rfl, Nat.sub_self]
        rfl
      · rw [if_neg (by omega), if_neg h.ne', if_neg (by omega)]
    · rw [if_neg (by omega)]
      rfl

/-- The load by the image's bytes: its origin, and the words behind it. -/
theorem word_loadImage (hi lo : Byte) (rest : List Byte) {s : State} (hw : s.mem.wf = true) (a : Word) :
    (s.loadImage (hi :: lo :: rest)).word a =
      if (hi ++ lo).toNat ≤ a.toNat ∧ 2 * (a.toNat - (hi ++ lo).toNat) + 3 < (hi :: lo :: rest).length then
        rest.getD (2 * (a.toNat - (hi ++ lo).toNat)) 0#8 ++ rest.getD (2 * (a.toNat - (hi ++ lo).toNat) + 1) 0#8
      else s.word a := by
  have hlt : 2 * (a.toNat - (hi ++ lo).toNat) + 3 < (hi :: lo :: rest).length ↔
      2 * (a.toNat - (hi ++ lo).toNat) + 1 < rest.length :=
    Nat.add_lt_add_iff_right (k := 2)
  have h : (s.loadImage (hi :: lo :: rest)).word a = _ := read_loadWords a.isLt hw
  rw [h, imageWords_getElem?, ← ite_and, if_congr (and_congr_right' hlt) rfl rfl]
  split <;> rfl

theorem loadImage_eq (s : State) (b : List Byte) : ∃ m, s.loadImage b = { s with mem := m } := by
  unfold State.loadImage
  split
  · exact ⟨s.mem, rfl⟩
  · exact ⟨_, rfl⟩

theorem loadImage_short (s : State) {b : List Byte} (h : b.length < 2) : s.loadImage b = s := by
  match b, h with
  | [], _ => rfl
  | [_], _ => rfl

/-- Settles O50: an image of two bytes or more is an origin and the bytes behind it. -/
theorem imageLoadPutsTheWordsFromItsOriginUp : Obligations.ImageLoadPutsTheWordsFromItsOriginUp := by
  refine ⟨fun s b hw hlen a => ?_, fun s b => ?_⟩
  · match b, hlen with
    | hi :: lo :: rest, _ =>
      simp only [List.getD_cons_zero, List.getD_cons_succ, ← append_toNat, BitVec.ofNat_toNat, BitVec.setWidth_eq]
      exact word_loadImage hi lo rest hw a
  · obtain ⟨m, e⟩ := loadImage_eq s b
    rw [e]
    exact ⟨fun _ _ => rfl, rfl, rfl, ⟨rfl, rfl, rfl, rfl, rfl⟩, rfl, fun h => e ▸ loadImage_short s h⟩

end Sys2Proof.Machine
end

section
/-! Encoding, then decoding (spec/30_encoding.md sections 4, 7): the opcode field gives the row back, each other field is the
one that was packed, and a TRAP's vector gives its service or its unlisted row. -/

namespace Sys2Proof.Machine

open Laws.Opcode (nameOf)

variable {c : Config} {v : BitVec 8}

/-- The encoder writes the opcode from which the decoder reads the row's name (R51, R56). -/
theorem opcodeName_encode (h : c.mapsWf = true) (i : Instr) : opcodeName c (opcodeField (encode c i)) = nameOf i := by
  have hop : opcodeField (encode c i) = opcodeValue c (nameOf i) := by
    cases i <;> exact opcodeField_layout _ _ rfl
  rw [hop, opcodeName_opcodeValue h]

theorem decodeTrap_service {x : Service} (h : serviceOf c v = some x) : decodeTrap c v = serviceRow x := by
  rw [decodeTrap, h]

theorem decodeTrap_unlisted (h : serviceOf c v = none) : decodeTrap c v = unlistedRow v := by
  rw [decodeTrap, h]

theorem decode_encodeTrap (h : c.mapsWf = true) (v : BitVec 8) : decode c (encodeTrap c v) = decodeTrap c v := by
  have hname : opcodeName c (opcodeField (encodeTrap c v)) = .trap := opcodeName_encode h (.trapUnlisted00 v)
  have hvect : field (encodeTrap c v) 0 8 = v := field_pack_last _ v (by decide)
  rw [decode, hname, hvect]

theorem decode_encode_service (h : c.mapsWf = true) (x : Service) :
    decode c (encodeTrap c (trapVector c x)) = serviceRow x :=
  (decode_encodeTrap h _).trans (decodeTrap_service (serviceOf_trapVector h x))

/-- Settles O1: the row by `opcodeName_encode`, the fields by reading each back from where it was packed, and of an unlisted
TRAP the row by its bounds. -/
theorem decodeOfEncodeIsTheInstruction : Obligations.DecodeOfEncodeIsTheInstruction := by
  intro c i h hi
  have hname := opcodeName_encode h i
  cases i with
  | br | ld | st | ldr | str | ldi | sti | lea | jmp | not | rti | res | jsr | jsrr | addReg | addImm | andReg | andImm =>
    rw [decode, hname]
    simp (disch := omega) [nameOf, encode, layout, drField, sr1Field, sr2Field, field_pack_last, field_pack_high,
      bit_pack_high, bit_pack_low]
  | trapGetc => exact decode_encode_service h .getc
  | trapOut => exact decode_encode_service h .out
  | trapPuts => exact decode_encode_service h .puts
  | trapIn => exact decode_encode_service h .inp
  | trapPutsp => exact decode_encode_service h .putsp
  | trapHalt => exact decode_encode_service h .halt
  | trapUnlisted00 v | trapUnlisted26 v | trapUnlisted28 v | trapUnlisted30 v | trapUnlisted40 v | trapUnlisted80 v =>
    obtain ⟨hv, hlo, hhi⟩ := unlistedIn_iff.1 hi
    refine (decode_encodeTrap h v).trans ((decodeTrap_unlisted hv).trans ?_)
    simp (disch := omega) only [unlistedRow, if_pos, if_neg]

end Sys2Proof.Machine
end

section
/-! Decoding, then encoding (spec/30_encoding.md sections 4, 5): a word is its own fields packed again, and what is packed
into the bits marked x does not count. -/

namespace Sys2Proof.Machine

theorem field_one (w : Word) (i : Nat) : field w i 1 = BitVec.ofBool (bit w i) := by
  apply BitVec.eq_of_getLsbD_eq
  intro j hj
  obtain rfl : j = 0 := by omega
  simp [field, bit]

/-- The bits of a word from `k` up are those from `k + n` up with the field between them packed below. -/
theorem pack_field_ushiftRight (w : Word) (k n : Nat) : pack (w >>> (k + n)) (field w k n) = w >>> k := by
  have hf : field w k n = field (w >>> k) 0 n := by
    apply BitVec.eq_of_getLsbD_eq
    intro i hi
    simp [field, hi]
  rw [hf, BitVec.shiftRight_add, pack_field]

/-- What is packed so far, `u`, is `w` from bit `k` up, on the bits that the mask `M`, packed beside it, keeps. -/
def PacksAbove (w : Word) (k : Nat) (u M : Word) : Prop := u &&& M = w >>> k &&& M

namespace PacksAbove

variable {w u M x : Word} {k n : Nat}

/-- The next field is the word's own. -/
theorem field (n : Nat) (h : PacksAbove w (k + n) u M) :
    PacksAbove w k (pack u (field w k n)) (pack M (BitVec.allOnes n)) := by
  rw [PacksAbove, pack_and, h, ← pack_and, pack_field_ushiftRight]

/-- The next field is ignored, whatever is packed there. -/
theorem ignored (f : BitVec n) (h : PacksAbove w (k + n) u M) : PacksAbove w k (pack u f) (pack M 0#n) := by
  rw [PacksAbove, pack_and, h, ← pack_field_ushiftRight w k n, pack_and, BitVec.and_zero, BitVec.and_zero]

theorem reg (h : PacksAbove w (k + 3) u M) :
    PacksAbove w k (pack u (Reg.ofBits (Sys2Proof.field w k 3)).bits) (pack M (BitVec.allOnes 3)) := by
  rw [Reg.bits_ofBits]
  exact h.field 3

theorem bit {b : Bool} (hb : bit w k = b) (h : PacksAbove w (k + 1) u M) :
    PacksAbove w k (pack u (BitVec.ofBool b)) (pack M (BitVec.allOnes 1)) := by
  rw [← hb, ← field_one]
  exact h.field 1

/-- The value of the name that a word's opcode field selects, packed first (R51, R56). -/
theorem opcode {c : Config} (h : c.mapsWf = true) (w : Word) :
    PacksAbove w 12 (pack 0#16 (opcodeValue c (opcodeName c (opcodeField w)))) (pack 0#16 (BitVec.allOnes 4)) := by
  have hstart : PacksAbove w 16 0#16 0#16 := by rw [PacksAbove, BitVec.and_zero, BitVec.and_zero]
  rw [opcodeValue_opcodeName h]
  exact hstart.field (k := 12) 4

/-- The whole word packed with the bits of `x` ignored. -/
theorem agree (h : PacksAbove w 0 u M) (hM : M = ~~~ x) : u &&& ~~~ x = w &&& ~~~ x := hM ▸ h

/-- The whole word packed with every bit ignored that the mask `M` leaves out. -/
theorem selects (h : PacksAbove w 0 u M) (hu : u &&& M = x) : w &&& M = x := h.symm.trans hu

end PacksAbove

variable {c : Config}

theorem encode_serviceRow (x : Service) : encode c (serviceRow x) = encodeTrap c (trapVector c x) := by
  cases x <;> rfl

theorem encode_unlistedRow (v : BitVec 8) : encode c (unlistedRow v) = encodeTrap c v := by
  unfold unlistedRow
  split_ifs <;> rfl

theorem encode_decodeTrap (v : BitVec 8) : encode c (decodeTrap c v) = encodeTrap c v := by
  cases h : serviceOf c v with
  | some x => rw [decodeTrap_service h, encode_serviceRow, trapVector_of_serviceOf h]
  | none => rw [decodeTrap_unlisted h, encode_unlistedRow]

theorem ignoredBits_serviceRow (x : Service) : ignoredBits (serviceRow x) = 0x0F00#16 := by
  cases x <;> rfl

theorem ignoredBits_unlistedRow (v : BitVec 8) : ignoredBits (unlistedRow v) = 0x0F00#16 := by
  unfold unlistedRow
  split_ifs <;> rfl

theorem ignoredBits_decodeTrap (v : BitVec 8) : ignoredBits (decodeTrap c v) = 0x0F00#16 := by
  cases h : serviceOf c v with
  | some x => rw [decodeTrap_service h, ignoredBits_serviceRow]
  | none => rw [decodeTrap_unlisted h, ignoredBits_unlistedRow]

/-- Settles O5: row by row, the fields of R57 packed from the opcode down. -/
theorem encodeOfDecodeKeepsEveryBitThatMatters : Obligations.EncodeOfDecodeKeepsEveryBitThatMatters := by
  intro c w h
  have hop := PacksAbove.opcode h w
  unfold decode
  cases ho : opcodeName c (opcodeField w) <;> rw [ho] at hop
  case trap =>
    dsimp only
    rw [encode_decodeTrap, ignoredBits_decodeTrap]
    exact ((hop.ignored 0#4).field 8).agree (by decide)
  all_goals dsimp only [ignoredBits]
  case br => exact ((((hop.bit rfl).bit rfl).bit rfl).field 9).agree (by decide)
  case ld | st | ldi | sti | lea => exact (hop.reg.field 9).agree (by decide)
  case ldr | str => exact (hop.reg.reg.field 6).agree (by decide)
  case not => exact (hop.reg.reg.ignored 0x3F#6).agree (by decide)
  case jmp => exact ((hop.ignored 0#3).reg.ignored 0#6).agree (by decide)
  case rti | res => exact (hop.ignored 0#12).agree (by decide)
  case add | and =>
    split <;> dsimp only [ignoredBits]
    · next hb => exact ((hop.reg.reg.bit hb).field 5).agree (by decide)
    · next hb => exact ((hop.reg.reg.bit (eq_false_of_ne_true hb)).ignored 0#2).reg.agree (by decide)
  case jsr =>
    split <;> dsimp only [ignoredBits]
    · next hb => exact ((hop.bit hb).field 11).agree (by decide)
    · next hb => exact (((hop.bit (eq_false_of_ne_true hb)).ignored 0#2).reg.ignored 0#6).agree (by decide)

end Sys2Proof.Machine
end

section
/-! The ignored bits (spec/30_encoding.md R58, D26): the decoder reads only bits that the row keeps. -/

namespace Sys2Proof.Machine

variable {w w' : Word}

theorem opcodeField_ignoredBits (i : Instr) : opcodeField (ignoredBits i) = 0#4 := by
  cases i <;> (dsimp only [ignoredBits]; decide)

/-- No row ignores a bit of the opcode, so words that agree outside a row's ignored bits have one opcode. -/
theorem opcodeField_eq_of_agree {i : Instr} (h : w' &&& ~~~ ignoredBits i = w &&& ~~~ ignoredBits i) :
    opcodeField w' = opcodeField w := by
  refine field_eq_of_mask h fun j hj => ?_
  have hz : (opcodeField (ignoredBits i)).getLsbD j = false := by rw [opcodeField_ignoredBits, BitVec.getLsbD_zero]
  have hbit : (ignoredBits i).getLsbD (12 + j) = false := by simpa [opcodeField, field, hj] using hz
  rw [BitVec.getLsbD_not, hbit, decide_eq_true (by omega : 12 + j < 16)]
  rfl

theorem eq_of_agree_all (h : w' &&& ~~~ 0#16 = w &&& ~~~ 0#16) : w' = w := by
  simpa only [BitVec.not_zero, BitVec.and_allOnes] using h

/-- Settles O4: the rows that ignore nothing decode equal words; of the others every field that is read lies under the mask. -/
theorem ignoredBitsHaveNoEffect : Obligations.IgnoredBitsHaveNoEffect := by
  intro c w w' h
  have hop := opcodeField_eq_of_agree h
  unfold decode at h ⊢
  rw [hop]
  generalize opcodeName c (opcodeField w) = o at h ⊢
  cases o <;> dsimp only at h ⊢
  case trap =>
    rw [ignoredBits_decodeTrap] at h
    rw [field_eq_of_mask h (by decide)]
  case br | ld | st | ldr | str | ldi | sti | lea => rw [eq_of_agree_all h]
  case not =>
    dsimp only [ignoredBits] at h
    rw [drField, sr1Field, field_eq_of_mask h (by decide), field_eq_of_mask h (by decide)]
    rfl
  case jmp =>
    dsimp only [ignoredBits] at h
    rw [sr1Field, field_eq_of_mask h (by decide)]
    rfl
  case add | and =>
    split at h
    · next hb => rw [eq_of_agree_all h, if_pos hb]
    · next hb =>
      dsimp only [ignoredBits] at h
      have hb' : bit w' 5 = bit w 5 := bit_eq_of_mask h (by decide)
      rw [hb', if_neg hb, if_neg hb, drField, sr1Field, sr2Field, field_eq_of_mask h (by decide),
        field_eq_of_mask h (by decide), field_eq_of_mask h (by decide)]
      rfl
  case jsr =>
    split at h
    · next hb => rw [eq_of_agree_all h, if_pos hb]
    · next hb =>
      dsimp only [ignoredBits] at h
      have hb' : bit w' 11 = bit w 11 := bit_eq_of_mask h (by decide)
      rw [hb', if_neg hb, if_neg hb, sr1Field, field_eq_of_mask h (by decide)]
      rfl

end Sys2Proof.Machine
end

section
/-! The opcode table (spec/30_encoding.md section 7): a word selects the row it decodes to, and no two rows can be selected
together. -/

namespace Sys2Proof.Machine

theorem defaultConfig_mapsWf : defaultConfig.mapsWf = true := by decide

/-- Over the 256 vectors: the row of a vector is selected by the TRAP word with that vector, and its mask keeps none of the
ignored bits 11:8 (R60, R61). -/
theorem trapRow_selected : ∀ v : BitVec 8,
    pack 0xF0#16 v &&& (tableRow (decodeTrap defaultConfig v)).1 = (tableRow (decodeTrap defaultConfig v)).2 ∧
      0xF0FF#16 &&& (tableRow (decodeTrap defaultConfig v)).1 = (tableRow (decodeTrap defaultConfig v)).1 := by
  decide

/-- The row's mask keeps the opcode, of ADD, AND and JSR also the form bit, of TRAP also (bits of) the vector; the decoder
has read them there. -/
theorem row_of_decode_selected (w : Word) :
    w &&& (tableRow (decode defaultConfig w)).1 = (tableRow (decode defaultConfig w)).2 := by
  have hop := PacksAbove.opcode defaultConfig_mapsWf w
  unfold decode
  cases ho : opcodeName defaultConfig (opcodeField w) <;> rw [ho] at hop
  case trap =>
    obtain ⟨hsel, hmask⟩ := trapRow_selected (field w 0 8)
    have hw : pack 0xF0#16 (field w 0 8) &&& 0xF0FF#16 = w &&& 0xF0FF#16 := (hop.ignored 0#4).field 8
    dsimp only
    rw [← hmask, ← BitVec.and_assoc, ← hw, BitVec.and_assoc, hmask]
    exact hsel
  case add | and =>
    dsimp only
    split <;> dsimp only [tableRow]
    · next hb => exact (((hop.ignored 0#6).bit hb).ignored 0#5).selects (by decide)
    · next hb => exact (((hop.ignored 0#6).bit (eq_false_of_ne_true hb)).ignored 0#5).selects (by decide)
  case jsr =>
    dsimp only
    split <;> dsimp only [tableRow]
    · next hb => exact ((hop.bit hb).ignored 0#11).selects (by decide)
    · next hb => exact ((hop.bit (eq_false_of_ne_true hb)).ignored 0#11).selects (by decide)
  all_goals
    dsimp only [tableRow]
    exact (hop.ignored 0#12).selects (by decide)

theorem tableRow_mem_opcodeTable (i : Instr) : tableRow i ∈ opcodeTable := by
  cases i <;> (dsimp only [tableRow]; decide)

/-- The two rows ask for different values of a bit that both look at. -/
def RowsConflict (r r' : Word × Word) : Prop := r.2 &&& r'.1 ≠ r'.2 &&& r.1

theorem RowsConflict.ne {r r' : Word × Word} (h : RowsConflict r r') : r ≠ r' := by
  rintro rfl
  exact h rfl

theorem RowsConflict.not_both {r r' : Word × Word} (h : RowsConflict r r') {w : Word} (hr : w &&& r.1 = r.2) :
    w &&& r'.1 ≠ r'.2 := by
  intro hr'
  apply h
  rw [← hr, ← hr', BitVec.and_assoc, BitVec.and_assoc, BitVec.and_comm r.1]

theorem opcodeTable_conflicts : opcodeTable.Pairwise RowsConflict := by
  unfold RowsConflict
  decide

/-- A word selects at most one row of the table. -/
theorem selected_row_unique {w : Word} {r r' : Word × Word} (hm : r ∈ opcodeTable) (hm' : r' ∈ opcodeTable)
    (hr : w &&& r.1 = r.2) (hr' : w &&& r'.1 = r'.2) : r = r' := by
  have hsymm : Std.Symm RowsConflict := ⟨fun _ _ => Ne.symm⟩
  by_contra hne
  exact (opcodeTable_conflicts.forall hm hm' hne).not_both hr hr'

/-- Settles O3: the selected rows are those equal to the decoded one, which the table holds once. -/
theorem everyWordSelectsExactlyItsRowOfTheTable : Obligations.EveryWordSelectsExactlyItsRowOfTheTable := by
  intro w
  have hmem := tableRow_mem_opcodeTable (decode defaultConfig w)
  have honly : ∀ r ∈ opcodeTable, decide (w &&& r.1 = r.2) = (r == tableRow (decode defaultConfig w)) := by
    intro r hr
    rw [Bool.eq_iff_iff, decide_eq_true_iff, beq_iff_eq]
    exact ⟨fun h => selected_row_unique hr hmem h (row_of_decode_selected w), fun h => h ▸ row_of_decode_selected w⟩
  rw [List.filter_congr honly, List.filter_beq, List.count_eq_one_of_mem (opcodeTable_conflicts.imp RowsConflict.ne) hmem]
  rfl

/-- Settles O6: each word by evaluation. -/
theorem specExampleWordsDecode : Obligations.SpecExampleWordsDecode := by
  unfold Obligations.SpecExampleWordsDecode
  decide

end Sys2Proof.Machine
end

section
/-! JSRR (spec/41_control.md R85) and the unlisted services (spec/44_trap.md R118): each writes the link. -/

namespace Sys2Proof.Machine

theorem exec_jsrr (base : Reg) (s : State) :
    exec (.jsrr base) s = .next (((s.setReg .r7 s.pc).setPC ((s.setReg .r7 s.pc).reg base)).setSignal .cont) := rfl

/-- Settles O23: any other base is read as it was, and R7 as the link just written (D14). -/
theorem jsrrWritesTheLinkBeforeItReadsTheBase : Obligations.JsrrWritesTheLinkBeforeItReadsTheBase := by
  intro base s
  refine ⟨_, exec_jsrr base s, reg_setReg_same s .r7 s.pc, fun hne => reg_setReg_other s s.pc hne, ?_,
    onlyRegs_link s _ _, rfl⟩
  rintro rfl
  exact reg_setReg_same s .r7 s.pc

/-- The six unlisted rows have one meaning: the entry, and no service behind it (R118, D15). -/
theorem exec_unlisted {v : BitVec 8} {i : Instr}
    (hi : i ∈ [.trapUnlisted00 v, .trapUnlisted26 v, .trapUnlisted28 v, .trapUnlisted30 v, .trapUnlisted40 v, .trapUnlisted80 v])
    (s : State) : exec i s = .next ((trapEntry s).setSignal .cont) := by
  simp only [List.mem_cons, List.not_mem_nil, or_false] at hi
  rcases hi with rfl | rfl | rfl | rfl | rfl | rfl <;> rfl

/-- Settles O33: the entry's link and frame. -/
theorem unlistedTrapWritesOnlyR7 : Obligations.UnlistedTrapWritesOnlyR7 :=
  fun _ s _ hi => ⟨_, exec_unlisted hi s, reg_trapEntry_link s,
    ⟨sameRegsBut_trapEntry s, fun _ => rfl, ⟨rfl, rfl, rfl, rfl, rfl⟩, rfl, rfl, rfl⟩, rfl, rfl⟩

end Sys2Proof.Machine
end

section
/-! `setcc` (spec/10_state.md R16). -/

namespace Sys2Proof.Machine

/-- Settles O9: COND is `condOf`, by definition R16's three cases; its bits are the sign by `condOf_sign`. -/
theorem setccReportsTheSign : Obligations.SetccReportsTheSign :=
  fun _ v => ⟨rfl, condOf_sign v, condOf_cases v, fun _ _ => rfl, rfl, fun _ => rfl, ⟨rfl, rfl, rfl, rfl, rfl⟩, rfl⟩

end Sys2Proof.Machine
end

section
/-! Reading the keyboard status word (spec/20_memory.md R32, R34), by the poll's answer. -/

namespace Sys2Proof.Machine

variable {s : State} {c : Byte}

theorem statusRead_of_answer (h : (kbdPoll s).1 = some c) : statusRead s =
    memWrite (memWrite (kbdPoll s).2 s.cfg.kbsrAddr 0x8000#16) s.cfg.kbdrAddr (zext16 c) := by
  obtain ⟨t, hp⟩ : ∃ t, kbdPoll s = (some c, t) := ⟨_, Prod.ext h rfl⟩
  rw [statusRead, hp]

theorem statusRead_of_none (h : (kbdPoll s).1 = none) :
    statusRead s = memWrite (kbdPoll s).2 s.cfg.kbsrAddr 0x0000#16 := by
  obtain ⟨t, hp⟩ : ∃ t, kbdPoll s = (none, t) := ⟨_, Prod.ext h rfl⟩
  rw [statusRead, hp]

variable (s) in
theorem kbdPoll_word (a : Word) : (kbdPoll s).2.word a = s.word a := by
  obtain ⟨_, _, _, _, _, hmem, _⟩ := kbdPoll_frame s
  rw [State.word, hmem, State.word]

/-- A poll that answers `c` leaves 0x8000 in the status word and `c` in the data word (R34). -/
theorem statusRead_words_of_answer (hw : s.mem.wf = true) (hne : s.cfg.kbsrAddr ≠ s.cfg.kbdrAddr)
    (h : (kbdPoll s).1 = some c) :
    (statusRead s).word s.cfg.kbsrAddr = 0x8000#16 ∧ (statusRead s).word s.cfg.kbdrAddr = zext16 c := by
  obtain ⟨_, _, _, _, _, hmem, _⟩ := kbdPoll_frame s
  have hpw : (kbdPoll s).2.mem.wf = true := hmem ▸ hw
  rw [statusRead_of_answer h, word_memWrite_other _ _ hne, word_memWrite_same _ _ _ hpw,
    word_memWrite_same _ _ _ (memWrite_wf _ _ _ hpw)]
  exact ⟨rfl, rfl⟩

/-- A poll that answers none leaves 0 in the status word and the data word as it was (R34). -/
theorem statusRead_words_of_none (hw : s.mem.wf = true) (hne : s.cfg.kbsrAddr ≠ s.cfg.kbdrAddr)
    (h : (kbdPoll s).1 = none) :
    (statusRead s).word s.cfg.kbsrAddr = 0x0000#16 ∧ (statusRead s).word s.cfg.kbdrAddr = s.word s.cfg.kbdrAddr := by
  obtain ⟨_, _, _, _, _, hmem, _⟩ := kbdPoll_frame s
  rw [statusRead_of_none h, word_memWrite_same _ _ _ (hmem ▸ hw), word_memWrite_other _ _ hne.symm, kbdPoll_word]
  exact ⟨rfl, rfl⟩

variable (s) in
/-- Behind the poll a status read only stores. -/
theorem sameKeyboard_statusRead : SameKeyboard (kbdPoll s).2 (statusRead s) := by
  cases h : (kbdPoll s).1 with
  | some c =>
    rw [statusRead_of_answer h]
    exact ⟨rfl, rfl, rfl, rfl, rfl⟩
  | none =>
    rw [statusRead_of_none h]
    exact ⟨rfl, rfl, rfl, rfl, rfl⟩

/-- Settles O37: the two keyboard words by the poll's answer; the rest is what every read leaves. -/
theorem statusReadPollsAndEveryOtherReadIsPlain : Obligations.StatusReadPollsAndEveryOtherReadIsPlain := by
  refine ⟨fun s hw hne => ?_, fun s a ha => memRead_plain s ha⟩
  have hframe : ∀ a, a ≠ s.cfg.kbsrAddr → a ≠ s.cfg.kbdrAddr → (statusRead s).word a = s.word a := fun a h1 h2 => by
    rw [← word_memRead s s.cfg.kbsrAddr h1 h2, memRead_status]
  rw [memRead_status, memRead_plain s hne.symm]
  refine ⟨fun c h => ?_, fun h => ?_, sameKeyboard_statusRead s, hframe, fun q _ => statusRead_reg s q, statusRead_pc s,
    statusRead_cond s, statusRead_conOutLog s, rfl⟩
  · obtain ⟨hsr, hdr⟩ := statusRead_words_of_answer hw hne h
    exact ⟨hsr, hsr, hdr ▸ zext16_toNat c⟩
  · obtain ⟨hsr, hdr⟩ := statusRead_words_of_none hw hne h
    exact ⟨hsr, hsr, hdr⟩

end Sys2Proof.Machine
end

section
/-! The last signal (spec/70_reset_and_hazards.md section 3, D22). -/

namespace Sys2Proof.Machine

/-- Settles O48: `step_withUnread` with nothing before the console. -/
theorem haltingIsASignalAndNoLatch : Obligations.HaltingIsASignalAndNoLatch :=
  fun _ _ g h => step_withUnread [] g h

end Sys2Proof.Machine
end

section
/-! The canonical form of memory: one list for one content (log 3). -/

namespace Sys2Proof

theorem Memory.wfFrom_cons_iff {lo k : Nat} {v : Word} {m : Memory} : Memory.wfFrom lo ((k, v) :: m) = true ↔
    lo ≤ k ∧ k < 65536 ∧ v ≠ Machine.unlistedWord ∧ Memory.wfFrom (k + 1) m = true := by
  simp only [Memory.wfFrom, Bool.and_eq_true, decide_eq_true_eq, and_assoc]

theorem Memory.read_head_ne {lo k : Nat} {v : Word} {m : Memory} (h : Memory.wfFrom lo ((k, v) :: m) = true) :
    Memory.read ((k, v) :: m) k ≠ Machine.unlistedWord := by
  obtain ⟨_, _, hv, _⟩ := wfFrom_cons_iff.1 h
  rwa [Memory.read_cons, if_pos rfl]

/-- A list that reads something at `k` does not begin above `k`. -/
theorem Memory.head_le_of_read_ne {lo k k' : Nat} {v' : Word} {m' : Memory}
    (h' : Memory.wfFrom lo ((k', v') :: m') = true) (hr : Memory.read ((k', v') :: m') k ≠ Machine.unlistedWord) : k' ≤ k := by
  obtain ⟨_, hrest⟩ := wfFrom_cons_iff.1 h'
  by_contra hlt
  exact hr (Memory.read_below (wfFrom_cons_iff.2 ⟨le_rfl, hrest⟩) (Nat.lt_of_not_le hlt))

/-- Canonical lists that read alike begin with the same entry, and their tails read alike again. -/
theorem Memory.eq_of_read : ∀ {lo lo' : Nat} {m m' : Memory}, Memory.wfFrom lo m = true → Memory.wfFrom lo' m' = true →
    (∀ a < 65536, m.read a = m'.read a) → m = m'
  | _, _, [], [], _, _, _ => rfl
  | _, _, [], (k, v) :: m', _, h', hr => by
    obtain ⟨_, hk, _⟩ := wfFrom_cons_iff.1 h'
    exact absurd (hr k hk).symm (Memory.read_head_ne h')
  | _, _, (k, v) :: m, [], h, _, hr => by
    obtain ⟨_, hk, _⟩ := wfFrom_cons_iff.1 h
    exact absurd (hr k hk) (Memory.read_head_ne h)
  | _, _, (k, v) :: m, (k', v') :: m', h, h', hr => by
    obtain ⟨_, hk, _, hm⟩ := wfFrom_cons_iff.1 h
    obtain ⟨_, hk', _, hm'⟩ := wfFrom_cons_iff.1 h'
    obtain rfl : k = k' := Nat.le_antisymm (Memory.head_le_of_read_ne h (hr k' hk' ▸ Memory.read_head_ne h'))
      (Memory.head_le_of_read_ne h' (hr k hk ▸ Memory.read_head_ne h))
    have hv : v = v' := by simpa [Memory.read_cons] using hr k hk
    have htail : ∀ a < 65536, Memory.read m a = Memory.read m' a := fun a ha => by
      rcases Nat.lt_or_ge k a with hka | hak
      · simpa [Memory.read_cons, hka.ne] using hr a ha
      · rw [Memory.read_below hm (Nat.lt_succ_of_le hak), Memory.read_below hm' (Nat.lt_succ_of_le hak)]
    rw [hv, Memory.eq_of_read hm hm' htail]

/-- Settles O51: `Memory.eq_of_read`, every address below 65536 being a word. -/
theorem canonicalMemoriesThatReadAlikeAreEqual : Obligations.CanonicalMemoriesThatReadAlikeAreEqual :=
  fun _ _ h h' hr => Memory.eq_of_read h h' fun a ha => by simpa [Nat.mod_eq_of_lt ha] using hr (BitVec.ofNat 16 a)

end Sys2Proof
end

section
/-! The state after reset (spec/10_state.md section 7). -/

namespace Sys2Proof.Machine

/-- Reset sets COND and memory from parameters, so the invariant is what the parameters must satisfy. -/
theorem inv_resetOf {c : Config} (hc : c.wf = true) (h : OneFlag c.resetCond) : Inv (State.resetOf c) := by
  have hparts := hc
  simp only [Config.wf, Bool.and_eq_true] at hparts
  obtain ⟨⟨_, hmem⟩, _⟩ := hparts
  exact ⟨hmem, h, hc⟩

/-- Settles O44: `inv_resetOf`, the defaults being sound. -/
theorem invariantHoldsAtReset : Obligations.InvariantHoldsAtReset :=
  ⟨inv_resetOf (by decide) (.inr (.inl rfl)), fun _ => inv_resetOf⟩

/-- Settles O45: each default is the value written in `defaultConfig`; memory lists no word. -/
theorem resetLeavesTheDefaultValues : Obligations.ResetLeavesTheDefaultValues := by
  refine ⟨rfl, rfl, fun r => ?_, fun _ => rfl, rfl, rfl, rfl, by decide, by decide⟩
  cases r <;> rfl

end Sys2Proof.Machine
end
